-- ==== Sys2Proof/Word.lean ====
section
/-! DEFINITION. The bit-vector types of the machine (00_scope.md R7, 30_encoding.md R82). -/

namespace Sys2Proof

/-- A byte: a memory cell, a general register, a timer, the immediate `kk`. -/
abbrev Byte := BitVec 8

/-- 16 bits: an instruction word, `PC`, `SP`, `I`. Bit 0 is the least significant (R7). -/
abbrev Word := BitVec 16

/-- The 12-bit address immediate `nnn`. -/
abbrev Addr12 := BitVec 12

/-- The 4-bit immediate `n` of `DRW`. -/
abbrev Nibble := BitVec 4

/-- The number of a general register; all 16 values name a register (R21, R83). -/
abbrev Reg := Fin 16

end Sys2Proof
end

