-- ==== Sys2Proof/Syntax.lean ====
section
/-! DEFINITION. The 34 instructions of 30_encoding.md R86, one constructor a row, in the table's order. -/

namespace Sys2Proof

/-- An instruction with the fields its row uses (R81, R82). The bits R85 calls ignored are no fields of an
instruction, but for `y` of `SHR` and `SHL`, which the table lists and no meaning reads. -/
inductive Instr where
  /-- `CLS` (`0?E0`). -/
  | cls
  /-- `RET` (`0?EE`). -/
  | ret
  /-- `JP addr` (`1nnn`). -/
  | jp (nnn : Addr12)
  /-- `CALL addr` (`2nnn`). -/
  | call (nnn : Addr12)
  /-- `SE Vx, byte` (`3xkk`). -/
  | seByte (x : Reg) (kk : Byte)
  /-- `SNE Vx, byte` (`4xkk`). -/
  | sneByte (x : Reg) (kk : Byte)
  /-- `SE Vx, Vy` (`5xy?`). -/
  | seReg (x y : Reg)
  /-- `LD Vx, byte` (`6xkk`). -/
  | ldByte (x : Reg) (kk : Byte)
  /-- `ADD Vx, byte` (`7xkk`). -/
  | addByte (x : Reg) (kk : Byte)
  /-- `LD Vx, Vy` (`8xy0`). -/
  | ldReg (x y : Reg)
  /-- `OR Vx, Vy` (`8xy1`). -/
  | orReg (x y : Reg)
  /-- `AND Vx, Vy` (`8xy2`). -/
  | andReg (x y : Reg)
  /-- `XOR Vx, Vy` (`8xy3`). -/
  | xorReg (x y : Reg)
  /-- `ADD Vx, Vy` (`8xy4`). -/
  | addReg (x y : Reg)
  /-- `SUB Vx, Vy` (`8xy5`). -/
  | sub (x y : Reg)
  /-- `SHR Vx` (`8x?6`). -/
  | shr (x y : Reg)
  /-- `SUBN Vx, Vy` (`8xy7`). -/
  | subn (x y : Reg)
  /-- `SHL Vx` (`8x?E`). -/
  | shl (x y : Reg)
  /-- `SNE Vx, Vy` (`9xy?`). -/
  | sneReg (x y : Reg)
  /-- `LD I, addr` (`Annn`). -/
  | ldI (nnn : Addr12)
  /-- `JP V0, addr` (`Bnnn`). -/
  | jpV0 (nnn : Addr12)
  /-- `RND Vx, byte` (`Cxkk`). -/
  | rnd (x : Reg) (kk : Byte)
  /-- `DRW Vx, Vy, n` (`Dxyn`). -/
  | drw (x y : Reg) (n : Nibble)
  /-- `SKP Vx` (`Ex9E`). -/
  | skp (x : Reg)
  /-- `SKNP Vx` (`ExA1`). -/
  | sknp (x : Reg)
  /-- `LD Vx, DT` (`Fx07`). -/
  | ldVxDt (x : Reg)
  /-- `LD Vx, K` (`Fx0A`). -/
  | ldVxK (x : Reg)
  /-- `LD DT, Vx` (`Fx15`). -/
  | ldDtVx (x : Reg)
  /-- `LD ST, Vx` (`Fx18`). -/
  | ldStVx (x : Reg)
  /-- `ADD I, Vx` (`Fx1E`). -/
  | addI (x : Reg)
  /-- `LD F, Vx` (`Fx29`). -/
  | ldF (x : Reg)
  /-- `LD B, Vx` (`Fx33`). -/
  | ldB (x : Reg)
  /-- `LD [I], Vx` (`Fx55`). -/
  | ldMemVx (x : Reg)
  /-- `LD Vx, [I]` (`Fx65`). -/
  | ldVxMem (x : Reg)
deriving DecidableEq, Repr

end Sys2Proof
end

