-- ==== Sys2Proof/Decode.lean ====
section
/-! DEFINITION. From bytes to instructions and back: byte order (R51), fields (R82), two-level dispatch (R84),
the opcode map (R86), decode failures by name (R88), the encoder, and the assembler spelling (R93 to R95). -/

namespace Sys2Proof

/-! ### Byte order -/

/-- The word of two bytes, the first (lower-addressed) byte in the high half (R51). -/
def wordOfBytes (b0 b1 : Byte) : Word := b0 ++ b1

/-- The high half of a word: the byte at the lower address (R51, R52). -/
def hiByte (w : Word) : Byte := w.extractLsb' 8 8

/-- The low half of a word: the byte at the higher address (R51, R52). -/
def loByte (w : Word) : Byte := w.extractLsb' 0 8

/-- The bytes of a word as they lie in memory, lowest address first (R51). -/
def bytesOfWord (w : Word) : List Byte := [hiByte w, loByte w]

/-! ### Fields of an instruction word (R82) -/

/-- `f = op[15:12]`. -/
def fieldF (op : Word) : Nibble := op.extractLsb' 12 4

/-- `x = op[11:8]`. -/
def fieldX (op : Word) : Reg := (op.extractLsb' 8 4).toFin

/-- `y = op[7:4]`. -/
def fieldY (op : Word) : Reg := (op.extractLsb' 4 4).toFin

/-- `n = op[3:0]`. -/
def fieldN (op : Word) : Nibble := op.extractLsb' 0 4

/-- `kk = op[7:0]`. -/
def fieldKK (op : Word) : Byte := op.extractLsb' 0 8

/-- `nnn = op[11:0]`. -/
def fieldNNN (op : Word) : Addr12 := op.extractLsb' 0 12

/-! ### Decode -/

/-- Why bytes are no instruction. The four families are the rows of R88's table. -/
inductive DecodeReject where
  /-- Fewer than the two bytes every instruction has (R81). -/
  | short
  /-- Family 0x0, `kk` neither 0xE0 nor 0xEE. -/
  | family0 (kk : Byte)
  /-- Family 0x8, `n` none of 0 to 7 and 0xE. -/
  | family8 (n : Nibble)
  /-- Family 0xE, `kk` neither 0x9E nor 0xA1. -/
  | familyE (kk : Byte)
  /-- Family 0xF, `kk` none of the nine values of R86. -/
  | familyF (kk : Byte)
deriving DecidableEq, Repr

/-- Second level of family 0x0 (R84): on the low byte. -/
def decode0 (kk : Byte) : Except DecodeReject Instr :=
  match kk.toNat with
  | 0xE0 => .ok .cls
  | 0xEE => .ok .ret
  | _ => .error (.family0 kk)

/-- Second level of family 0x8 (R84): on the low nibble. -/
def decode8 (x y : Reg) (n : Nibble) : Except DecodeReject Instr :=
  match n.toNat with
  | 0x0 => .ok (.ldReg x y)
  | 0x1 => .ok (.orReg x y)
  | 0x2 => .ok (.andReg x y)
  | 0x3 => .ok (.xorReg x y)
  | 0x4 => .ok (.addReg x y)
  | 0x5 => .ok (.sub x y)
  | 0x6 => .ok (.shr x y)
  | 0x7 => .ok (.subn x y)
  | 0xE => .ok (.shl x y)
  | _ => .error (.family8 n)

/-- Second level of family 0xE (R84): on the low byte. -/
def decodeE (x : Reg) (kk : Byte) : Except DecodeReject Instr :=
  match kk.toNat with
  | 0x9E => .ok (.skp x)
  | 0xA1 => .ok (.sknp x)
  | _ => .error (.familyE kk)

/-- Second level of family 0xF (R84): on the low byte. -/
def decodeF (x : Reg) (kk : Byte) : Except DecodeReject Instr :=
  match kk.toNat with
  | 0x07 => .ok (.ldVxDt x)
  | 0x0A => .ok (.ldVxK x)
  | 0x15 => .ok (.ldDtVx x)
  | 0x18 => .ok (.ldStVx x)
  | 0x1E => .ok (.addI x)
  | 0x29 => .ok (.ldF x)
  | 0x33 => .ok (.ldB x)
  | 0x55 => .ok (.ldMemVx x)
  | 0x65 => .ok (.ldVxMem x)
  | _ => .error (.familyF kk)

/-- `Decode` of one word: the family selects (R84), the ignored bits of R85 are not looked at
(the numbers are customary, decision D11, log 10; the ignored bits decision D12, log 11). -/
def decodeWord (op : Word) : Except DecodeReject Instr :=
  match (fieldF op).toNat with
  | 0x0 => decode0 (fieldKK op)
  | 0x1 => .ok (.jp (fieldNNN op))
  | 0x2 => .ok (.call (fieldNNN op))
  | 0x3 => .ok (.seByte (fieldX op) (fieldKK op))
  | 0x4 => .ok (.sneByte (fieldX op) (fieldKK op))
  | 0x5 => .ok (.seReg (fieldX op) (fieldY op))
  | 0x6 => .ok (.ldByte (fieldX op) (fieldKK op))
  | 0x7 => .ok (.addByte (fieldX op) (fieldKK op))
  | 0x8 => decode8 (fieldX op) (fieldY op) (fieldN op)
  | 0x9 => .ok (.sneReg (fieldX op) (fieldY op))
  | 0xA => .ok (.ldI (fieldNNN op))
  | 0xB => .ok (.jpV0 (fieldNNN op))
  | 0xC => .ok (.rnd (fieldX op) (fieldKK op))
  | 0xD => .ok (.drw (fieldX op) (fieldY op) (fieldN op))
  | 0xE => decodeE (fieldX op) (fieldKK op)
  | _ => decodeF (fieldX op) (fieldKK op)

/-- `Decode` of a byte sequence: the first instruction and the bytes after it, or why there is none. -/
def decodeBytes : List Byte → Except DecodeReject (Instr × List Byte)
  | b0 :: b1 :: rest =>
    match decodeWord (wordOfBytes b0 b1) with
    | .ok i => .ok (i, rest)
    | .error e => .error e
  | _ => .error .short

/-- The word whose bits are `w`, numbered as the opcode table numbers them, with every bit above `nbits` 0. -/
def tableWord (nbits w : Nat) : Word := BitVec.ofNat 16 (w % 2 ^ nbits)

/-- What the decoder reads from a row's word, laid out in memory order (R51). -/
def decodeTableWord (nbits w : Nat) : Option Instr :=
  match decodeBytes (bytesOfWord (tableWord nbits w)) with
  | .ok (i, _) => some i
  | .error _ => none

/-! ### Encode -/

/-- A word of format `A`: family and address (R81). -/
def wordA (f : Nibble) (nnn : Addr12) : Word := f ++ nnn

/-- A word of formats `Z`, `XK` and `X`: family, register field, low byte (R81). -/
def wordXK (f : Nibble) (x : Reg) (kk : Byte) : Word := f ++ (BitVec.ofFin x : BitVec 4) ++ kk

/-- A word of formats `XY` and `XYN`: family, two register fields, low nibble (R81). -/
def wordXYN (f : Nibble) (x y : Reg) (n : Nibble) : Word :=
  f ++ (BitVec.ofFin x : BitVec 4) ++ (BitVec.ofFin y : BitVec 4) ++ n

/-- The canonical word of an instruction (R85, R86): ignored bits are 0, and `SHR`, `SHL` carry their `y`. -/
def encode : Instr → Word
  | .cls => wordXK 0x0 0 0xE0
  | .ret => wordXK 0x0 0 0xEE
  | .jp nnn => wordA 0x1 nnn
  | .call nnn => wordA 0x2 nnn
  | .seByte x kk => wordXK 0x3 x kk
  | .sneByte x kk => wordXK 0x4 x kk
  | .seReg x y => wordXYN 0x5 x y 0x0
  | .ldByte x kk => wordXK 0x6 x kk
  | .addByte x kk => wordXK 0x7 x kk
  | .ldReg x y => wordXYN 0x8 x y 0x0
  | .orReg x y => wordXYN 0x8 x y 0x1
  | .andReg x y => wordXYN 0x8 x y 0x2
  | .xorReg x y => wordXYN 0x8 x y 0x3
  | .addReg x y => wordXYN 0x8 x y 0x4
  | .sub x y => wordXYN 0x8 x y 0x5
  | .shr x y => wordXYN 0x8 x y 0x6
  | .subn x y => wordXYN 0x8 x y 0x7
  | .shl x y => wordXYN 0x8 x y 0xE
  | .sneReg x y => wordXYN 0x9 x y 0x0
  | .ldI nnn => wordA 0xA nnn
  | .jpV0 nnn => wordA 0xB nnn
  | .rnd x kk => wordXK 0xC x kk
  | .drw x y n => wordXYN 0xD x y n
  | .skp x => wordXK 0xE x 0x9E
  | .sknp x => wordXK 0xE x 0xA1
  | .ldVxDt x => wordXK 0xF x 0x07
  | .ldVxK x => wordXK 0xF x 0x0A
  | .ldDtVx x => wordXK 0xF x 0x15
  | .ldStVx x => wordXK 0xF x 0x18
  | .addI x => wordXK 0xF x 0x1E
  | .ldF x => wordXK 0xF x 0x29
  | .ldB x => wordXK 0xF x 0x33
  | .ldMemVx x => wordXK 0xF x 0x55
  | .ldVxMem x => wordXK 0xF x 0x65

/-- The encoded instruction as it lies in memory (R51). -/
def encodeBytes (i : Instr) : List Byte := bytesOfWord (encode i)

/-! ### The opcode map as a table (R86) -/

/-- A row of R86: a word selects it when `op & mask = pattern`. -/
structure OpcodeRow where
  mask : Word
  pattern : Word
deriving DecidableEq, Repr

/-- R86's selection test. -/
def OpcodeRow.selects (r : OpcodeRow) (op : Word) : Bool := op &&& r.mask == r.pattern

/-- The row of an instruction (R86, columns mask and match). -/
def Instr.row : Instr → OpcodeRow
  | .cls => ⟨0xF0FF, 0x00E0⟩
  | .ret => ⟨0xF0FF, 0x00EE⟩
  | .jp _ => ⟨0xF000, 0x1000⟩
  | .call _ => ⟨0xF000, 0x2000⟩
  | .seByte _ _ => ⟨0xF000, 0x3000⟩
  | .sneByte _ _ => ⟨0xF000, 0x4000⟩
  | .seReg _ _ => ⟨0xF000, 0x5000⟩
  | .ldByte _ _ => ⟨0xF000, 0x6000⟩
  | .addByte _ _ => ⟨0xF000, 0x7000⟩
  | .ldReg _ _ => ⟨0xF00F, 0x8000⟩
  | .orReg _ _ => ⟨0xF00F, 0x8001⟩
  | .andReg _ _ => ⟨0xF00F, 0x8002⟩
  | .xorReg _ _ => ⟨0xF00F, 0x8003⟩
  | .addReg _ _ => ⟨0xF00F, 0x8004⟩
  | .sub _ _ => ⟨0xF00F, 0x8005⟩
  | .shr _ _ => ⟨0xF00F, 0x8006⟩
  | .subn _ _ => ⟨0xF00F, 0x8007⟩
  | .shl _ _ => ⟨0xF00F, 0x800E⟩
  | .sneReg _ _ => ⟨0xF000, 0x9000⟩
  | .ldI _ => ⟨0xF000, 0xA000⟩
  | .jpV0 _ => ⟨0xF000, 0xB000⟩
  | .rnd _ _ => ⟨0xF000, 0xC000⟩
  | .drw _ _ _ => ⟨0xF000, 0xD000⟩
  | .skp _ => ⟨0xF0FF, 0xE09E⟩
  | .sknp _ => ⟨0xF0FF, 0xE0A1⟩
  | .ldVxDt _ => ⟨0xF0FF, 0xF007⟩
  | .ldVxK _ => ⟨0xF0FF, 0xF00A⟩
  | .ldDtVx _ => ⟨0xF0FF, 0xF015⟩
  | .ldStVx _ => ⟨0xF0FF, 0xF018⟩
  | .addI _ => ⟨0xF0FF, 0xF01E⟩
  | .ldF _ => ⟨0xF0FF, 0xF029⟩
  | .ldB _ => ⟨0xF0FF, 0xF033⟩
  | .ldMemVx _ => ⟨0xF0FF, 0xF055⟩
  | .ldVxMem _ => ⟨0xF0FF, 0xF065⟩

/-- R86's 34 rows, in its order. -/
def opcodeRows : List OpcodeRow :=
  [⟨0xF0FF, 0x00E0⟩, ⟨0xF0FF, 0x00EE⟩, ⟨0xF000, 0x1000⟩, ⟨0xF000, 0x2000⟩, ⟨0xF000, 0x3000⟩, ⟨0xF000, 0x4000⟩] ++
  [⟨0xF000, 0x5000⟩, ⟨0xF000, 0x6000⟩, ⟨0xF000, 0x7000⟩, ⟨0xF00F, 0x8000⟩, ⟨0xF00F, 0x8001⟩, ⟨0xF00F, 0x8002⟩] ++
  [⟨0xF00F, 0x8003⟩, ⟨0xF00F, 0x8004⟩, ⟨0xF00F, 0x8005⟩, ⟨0xF00F, 0x8006⟩, ⟨0xF00F, 0x8007⟩, ⟨0xF00F, 0x800E⟩] ++
  [⟨0xF000, 0x9000⟩, ⟨0xF000, 0xA000⟩, ⟨0xF000, 0xB000⟩, ⟨0xF000, 0xC000⟩, ⟨0xF000, 0xD000⟩, ⟨0xF0FF, 0xE09E⟩] ++
  [⟨0xF0FF, 0xE0A1⟩, ⟨0xF0FF, 0xF007⟩, ⟨0xF0FF, 0xF00A⟩, ⟨0xF0FF, 0xF015⟩, ⟨0xF0FF, 0xF018⟩, ⟨0xF0FF, 0xF01E⟩] ++
  [⟨0xF0FF, 0xF029⟩, ⟨0xF0FF, 0xF033⟩, ⟨0xF0FF, 0xF055⟩, ⟨0xF0FF, 0xF065⟩]

/-! ### Assembler spelling (R93 to R95) -/

/-- One upper-case hexadecimal digit. -/
def hexDigit (n : Nat) : String := String.singleton (Nat.digitChar (n % 16)).toUpper

/-- `d` hexadecimal digits of `n`, most significant first. -/
def hexDigits : Nat → Nat → String
  | 0, _ => ""
  | d + 1, n => hexDigits d (n / 16) ++ hexDigit n

/-- A number as the spec writes it: `0x` and `d` digits (R6). -/
def hexNumber (d n : Nat) : String := "0x" ++ hexDigits d n

/-- `V0` to `V9`, `VA` to `VF` (R93). -/
def regName (r : Reg) : String := "V" ++ hexDigit r.val

/-- The assembly line of an instruction (R93, R94; the number format is the spec's own, decision D24, log 24). -/
def Instr.listing : Instr → String
  | .cls => "CLS"
  | .ret => "RET"
  | .jp nnn => "JP " ++ hexNumber 3 nnn.toNat
  | .call nnn => "CALL " ++ hexNumber 3 nnn.toNat
  | .seByte x kk => "SE " ++ regName x ++ ", " ++ hexNumber 2 kk.toNat
  | .sneByte x kk => "SNE " ++ regName x ++ ", " ++ hexNumber 2 kk.toNat
  | .seReg x y => "SE " ++ regName x ++ ", " ++ regName y
  | .ldByte x kk => "LD " ++ regName x ++ ", " ++ hexNumber 2 kk.toNat
  | .addByte x kk => "ADD " ++ regName x ++ ", " ++ hexNumber 2 kk.toNat
  | .ldReg x y => "LD " ++ regName x ++ ", " ++ regName y
  | .orReg x y => "OR " ++ regName x ++ ", " ++ regName y
  | .andReg x y => "AND " ++ regName x ++ ", " ++ regName y
  | .xorReg x y => "XOR " ++ regName x ++ ", " ++ regName y
  | .addReg x y => "ADD " ++ regName x ++ ", " ++ regName y
  | .sub x y => "SUB " ++ regName x ++ ", " ++ regName y
  | .shr x _ => "SHR " ++ regName x
  | .subn x y => "SUBN " ++ regName x ++ ", " ++ regName y
  | .shl x _ => "SHL " ++ regName x
  | .sneReg x y => "SNE " ++ regName x ++ ", " ++ regName y
  | .ldI nnn => "LD I, " ++ hexNumber 3 nnn.toNat
  | .jpV0 nnn => "JP V0, " ++ hexNumber 3 nnn.toNat
  | .rnd x kk => "RND " ++ regName x ++ ", " ++ hexNumber 2 kk.toNat
  | .drw x y n => "DRW " ++ regName x ++ ", " ++ regName y ++ ", " ++ Nat.repr n.toNat
  | .skp x => "SKP " ++ regName x
  | .sknp x => "SKNP " ++ regName x
  | .ldVxDt x => "LD " ++ regName x ++ ", DT"
  | .ldVxK x => "LD " ++ regName x ++ ", K"
  | .ldDtVx x => "LD DT, " ++ regName x
  | .ldStVx x => "LD ST, " ++ regName x
  | .addI x => "ADD I, " ++ regName x
  | .ldF x => "LD F, " ++ regName x
  | .ldB x => "LD B, " ++ regName x
  | .ldMemVx x => "LD [I], " ++ regName x
  | .ldVxMem x => "LD " ++ regName x ++ ", [I]"

/-- The listing of any word: an unknown word is a `.word` line, marked as not implemented (R95). -/
def listingOfWord (op : Word) : String :=
  match decodeWord op with
  | .ok i => i.listing
  | .error _ => ".word " ++ hexNumber 4 op.toNat ++ " ; not implemented"

end Sys2Proof
end

