-- ==== Sys2Proof/Config.lean ====
section
/-! DEFINITION. The parameters of 00_scope.md R5: those that the spec leaves open are arguments of the machine (`Params`),
the others are constants. Then the free draws of the environment. -/

namespace Sys2Proof

/-- `VF_ORDER` (R5, R121): the two values that decision D13 allows. -/
inductive VfOrder where
  /-- The flag is written after the result, so that with `x = 15` it stays. The default. -/
  | flagLast
  /-- The five flag-writing ALU instructions with `x = 15` are refused. -/
  | refuse
deriving DecidableEq, Repr

/-- `KEY_SELECT` (R5, R163): the two ways that decision D14 names. -/
inductive KeySelect where
  /-- The lowest-numbered pressed key. The default. -/
  | lowest
  /-- Any pressed key, a free draw. -/
  | anyPressed
deriving DecidableEq, Repr

/-- The open parameters of a machine, with the spec's defaults (R5, "Open parameters, collected" of
92_eei_decisions.md). `FONT` is an argument of the `Reset` event (R58); no rule depends on `STEP_RATE` and `TICK_HZ`.
Their constraints are `Params.legal`. -/
structure Params where
  /-- `MEM_SIZE` (decision D2, log 12). -/
  memSize : Nat := 0x1000
  /-- `STACK_TOP` (decision D4, log 12). -/
  stackTop : Nat := 0x1000
  /-- `STACK_LIMIT`: how many entries the stack may hold, if it has a limit of its own (decision D26, log 26). -/
  stackLimit : Option Nat := none
  /-- `VF_ORDER` (decision D13, log 18). -/
  vfOrder : VfOrder := .flagLast
  /-- `KEY_SELECT` (decision D14, log 19). -/
  keySelect : KeySelect := .lowest
deriving DecidableEq, Repr

namespace Config

/-- `PROG_BASE`: where a program image is loaded (R5, R201). -/
abbrev progBase : Nat := 0x200

/-- `RESET_PC` (R5, R23). -/
abbrev resetPc : Word := 0x0200#16

/-- `FONT_BASE` (R5, R58). -/
abbrev fontBase : Nat := 0x000

/-- `GLYPH_BYTES` (R5, R58). -/
abbrev glyphBytes : Nat := 5

/-- `GLYPH_COUNT` (R5, R58). -/
abbrev glyphCount : Nat := 16

/-- `FB_W` (R5, R31). -/
abbrev fbW : Nat := 64

/-- `FB_H` (R5, R31). -/
abbrev fbH : Nat := 32

/-- `FONT`: the default 80 bytes of R58's table, one line a digit.
UNVERIFIED (log 9): the spec's own table, which it took from general knowledge (decision D10). -/
def font : List Byte :=
  [0xF0, 0x90, 0x90, 0x90, 0xF0] ++ [0x20, 0x60, 0x20, 0x20, 0x70] ++
  [0xF0, 0x10, 0xF0, 0x80, 0xF0] ++ [0xF0, 0x10, 0xF0, 0x10, 0xF0] ++
  [0x90, 0x90, 0xF0, 0x10, 0x10] ++ [0xF0, 0x80, 0xF0, 0x10, 0xF0] ++
  [0xF0, 0x80, 0xF0, 0x90, 0xF0] ++ [0xF0, 0x10, 0x20, 0x40, 0x40] ++
  [0xF0, 0x90, 0xF0, 0x90, 0xF0] ++ [0xF0, 0x90, 0xF0, 0x10, 0xF0] ++
  [0xF0, 0x90, 0xF0, 0x90, 0x90] ++ [0xE0, 0x90, 0xE0, 0x90, 0xE0] ++
  [0xF0, 0x80, 0x80, 0x80, 0xF0] ++ [0xE0, 0x90, 0x90, 0x90, 0xE0] ++
  [0xF0, 0x80, 0xF0, 0x80, 0xF0] ++ [0xF0, 0x80, 0xF0, 0x80, 0x80]

/-- Free value: the keypad level the host presents after draw `n` (R32, R41; U14, log 3). -/
opaque freeKeys : Nat → BitVec 16

/-- Free value: the random byte presented after draw `n` (R33; U12, log 3). -/
opaque freeRnd : Nat → Byte

/-- Free value: how many `Tick` events fall into gap `n` (R185; U13, log 3). -/
opaque freeTicks : Nat → Nat

/-- Free value: which pressed key `LD Vx, K` takes before draw `n` when `KEY_SELECT` leaves it open (U15, log 19). -/
opaque freeKey : Nat → Nat

end Config

end Sys2Proof
end

