-- ==== Sys2Proof/Machine/State.lean ====
section
/-! DEFINITION. The machine's state (10_state.md R36 and the outputs of R43), the environment's inputs, the
reasons a step can stop, and the state right after reset. -/

namespace Sys2Proof.Machine

/-- `MEM` (R30): the bytes that differ from what `Memory.unlisted` says, addresses strictly rising (`Memory.wf`). -/
abbrev Memory := List Host.Cell

/-- `FB` (R31): 32 rows of 64 pixels, `true` = on, row first. -/
abbrev Frame := Vector (Vector Bool 64) 32

/-- What `trace_pc` and `trace_op` carry while `trace_valid = 1` (R43, R178). -/
structure Trace where
  pc : Word
  op : Word
deriving DecidableEq, Repr

/-- An event of the timer unit or of the host (R20). -/
inductive Event where
  /-- `Tick` (R184). -/
  | tick
  /-- `Reset(program)`, with the `FONT` argument of R58 (R200). -/
  | reset (program font : List Byte)
deriving DecidableEq, Repr

/-- What happens between one `Step` and the next: events in order, then the inputs the next `Step` samples
(R20, R32, R33; log 2). -/
structure Gap where
  events : List Event
  keys : BitVec 16
  rnd : Byte
deriving DecidableEq, Repr

/-- The state of the machine. The fields from `keys` on are the model's own and stand for the environment. -/
structure State where
  /-- `V[0..15]` (R21); `VF` is `V[15]` (R22). -/
  v : Vector Byte 16
  /-- `I` (R25). -/
  i : Word
  /-- `PC` (R23). -/
  pc : Word
  /-- `SP` (R26). -/
  sp : Word
  /-- `DT` (R27). -/
  dt : Byte
  /-- `ST` (R28). -/
  st : Byte
  /-- `FAULT` (R29). -/
  fault : Bool
  /-- `FAULT_CAUSE` (R29, codes of R170). -/
  faultCause : BitVec 3
  /-- `FAULT_ADDR` (R29). -/
  faultAddr : BitVec 17
  /-- `FAULT_PC` (R29). -/
  faultPc : Word
  /-- `MEM` (R30). -/
  mem : Memory
  /-- `FB` (R31). -/
  fb : Frame
  /-- The output `waiting` (R43, R163). -/
  waiting : Bool
  /-- The output `decode_fail` of the last step (R43, R177). -/
  decodeFail : Bool
  /-- The outputs `trace_valid`, `trace_pc`, `trace_op` of the last step (R43, R178). -/
  trace : Option Trace
  /-- The keypad level presented to the coming step, bit `k` for key `k` (R32). -/
  keys : BitVec 16
  /-- The random byte presented to the coming step (R33). -/
  rnd : Byte
  /-- The gaps the environment has already chosen, the next one first (log 2). -/
  script : List Gap
  /-- How many gaps have passed; indexes the free draws (log 3). -/
  draws : Nat
  /-- The open parameters this machine was made with (R5). Fixed for the life of the machine, no state of the core (R35);
  no step and no event writes them (log 26). -/
  params : Params
deriving DecidableEq, Repr

/-- Where the model stops with no next state. The spec's own `Fault` (R170) is none of these: taking it is a next
state (R172, log 1). -/
inductive Fault where
  /-- Raised by `CALL` when `SP` is above `MEM_SIZE`, so that the push would write outside `MEM`, and by `RET` when the pop
  would read outside `MEM` below `STACK_TOP`. No run reaches such an `SP` (R26) with `STACK_TOP <= MEM_SIZE` (R5), and
  R59 names no cause for it. Safe: the model stops where the spec gives no effect (log 7). -/
  | stackOutsideMemory
deriving DecidableEq, Repr

/-- Why the model gives no meaning. -/
inductive Refusal where
  /-- Raised by `exec` for an instruction that has no meaning yet; no arm does. Safe. -/
  | notModelled (mnemonic : String)
  /-- Raised by a `Reset` event whose image does not fit above `PROG_BASE` (3584 bytes by default): such a `Reset` is not
  defined (R40, U23).
  Safe: the spec gives it no meaning (log 8). -/
  | imageTooLong
  /-- Raised by a `Reset` event whose `FONT` argument is not 80 bytes long, which is outside the parameter's type
  (R5). Safe (log 8). -/
  | fontNotEightyBytes
  /-- Raised by `ADD Vx, Vy`, `SUB`, `SHR`, `SUBN` and `SHL` with `x = 15` on a machine whose `VF_ORDER` is `refuse`; with
  the default `VF_ORDER` nothing raises it (R121, decision D13, log 18). Safe. -/
  | flagRegisterDestination
deriving DecidableEq, Repr

/-- A machine with parameters `p` right after `Reset` with an empty program (R36, R200): `mem = []` is the image of R201.
The report outputs are DESIGN CHOICE (log 5), the environment's fields DESIGN CHOICE (log 4). -/
def State.resetWith (p : Params) : State where
  v := Vector.replicate 16 0
  i := 0
  pc := Config.resetPc
  sp := BitVec.ofNat 16 p.stackTop
  dt := 0
  st := 0
  fault := false
  faultCause := 0
  faultAddr := 0
  faultPc := 0
  mem := []
  fb := Vector.replicate 32 (Vector.replicate 64 false)
  waiting := false
  decodeFail := false
  trace := none
  keys := 0
  rnd := 0
  script := []
  draws := 0
  params := p

/-- The machine of the spec's default parameters (R5) right after `Reset` with an empty program. -/
def State.reset : State := State.resetWith {}

end Sys2Proof.Machine
end

