-- ==== Sys2Proof/Machine/Ops.lean ====
section
/-! DEFINITION. The named operations over memory, registers, stack and framebuffer, and the taking of a fault.
An operation that can raise `Fault` takes what follows it as an argument `k`, so that raising abandons the step
with none of its writes (00_scope.md R8, 60_exceptions.md R172). -/

namespace Sys2Proof.Machine

/-- What executing an instruction answers. -/
abbrev Result := Host.Outcome State Fault Refusal

/-! ### Memory (20_memory.md) -/

/-- What an address reads as while nothing is listed for it: the image of R201 with an empty program and the default
font (fill: the spec's decision D9, log 17; font bytes: decision D10, log 9). -/
def Memory.unlisted (a : Nat) : Byte :=
  if a < Config.glyphBytes * Config.glyphCount then Config.font.getD a 0 else 0

/-- `MEM[a]` (R8). -/
def Memory.read : Memory → Nat → Byte
  | [], a => Memory.unlisted a
  | (k, b) :: rest, a => if k = a then b else Memory.read rest a

/-- `MEM[a] <- b` (R8), keeping the canonical form. -/
def Memory.write : Memory → Nat → Byte → Memory
  | [], a, b => if b = Memory.unlisted a then [] else [(a, b)]
  | (k, c) :: rest, a, b =>
    if a < k then (if b = Memory.unlisted a then (k, c) :: rest else (a, b) :: (k, c) :: rest)
    else if a = k then (if b = Memory.unlisted a then rest else (a, b) :: rest)
    else (k, c) :: Memory.write rest a b

/-- The canonical form from address `lo` up: strictly rising, inside a `MEM` of `size` bytes, no entry that says what an
unlisted address reads as. -/
def Memory.wfFrom (size : Nat) : Nat → Memory → Bool
  | _, [] => true
  | lo, (k, b) :: rest =>
    decide (lo ≤ k) && decide (k < size) && (b != Memory.unlisted k) && Memory.wfFrom size (k + 1) rest

/-- The canonical form of a memory of `size` bytes. -/
def Memory.wf (size : Nat) (m : Memory) : Bool := Memory.wfFrom size 0 m

/-- `n` bytes from `a` up, the lowest address first (R8). -/
def Memory.readBytes (m : Memory) (a : Nat) : Nat → List Byte
  | 0 => []
  | n + 1 => m.read a :: m.readBytes (a + 1) n

/-- Bytes stored from `a` up, the first at the lowest address (R8). -/
def Memory.writeBytes (m : Memory) (a : Nat) : List Byte → Memory
  | [] => m
  | b :: bs => (m.write a b).writeBytes (a + 1) bs

/-- The word at `a`, high byte at the lower address (R51, R52 a). No alignment (R53). -/
def Memory.readWord (m : Memory) (a : Nat) : Word := wordOfBytes (m.read a) (m.read (a + 1))

/-- The address decoder (R57): the lowest address of `addr .. addr+n-1` outside a `MEM` of `memSize` bytes, if there is
one. Addresses are natural numbers and never wrap. -/
def firstOutOfRange (memSize addr n : Nat) : Option Nat :=
  if addr + n ≤ memSize then none else some (max addr memSize)

/-! ### Updates of the state, one field each -/

/-- `V[x]` (R21). -/
def State.reg (s : State) (x : Reg) : Byte := s.v[x]

/-- `V[x] <- b` (R21): every register is writable. -/
def State.setReg (s : State) (x : Reg) (b : Byte) : State := { s with v := s.v.set x.val b x.isLt }

/-- `I <- w` (R25). -/
def State.setI (s : State) (w : Word) : State := { s with i := w }

/-- `PC <- w` (R23). -/
def State.setPc (s : State) (w : Word) : State := { s with pc := w }

/-- `SP <- w` (R26). -/
def State.setSp (s : State) (w : Word) : State := { s with sp := w }

/-- `DT <- b` (R27). -/
def State.setDt (s : State) (b : Byte) : State := { s with dt := b }

/-- `ST <- b` (R28). -/
def State.setSt (s : State) (b : Byte) : State := { s with st := b }

/-- `MEM` replaced (R30). -/
def State.setMem (s : State) (m : Memory) : State := { s with mem := m }

/-- `FB` replaced (R31). -/
def State.setFb (s : State) (f : Frame) : State := { s with fb := f }

/-- The output `waiting` (R43). -/
def State.setWaiting (s : State) (w : Bool) : State := { s with waiting := w }

/-- The output `decode_fail` (R43). -/
def State.setDecodeFail (s : State) (d : Bool) : State := { s with decodeFail := d }

/-- The trace outputs (R43). -/
def State.setTrace (s : State) (t : Option Trace) : State := { s with trace := t }

/-- The inputs of the coming step (R32, R33). -/
def State.setInputs (s : State) (keys : BitVec 16) (rnd : Byte) : State := { s with keys := keys, rnd := rnd }

/-- The gaps still to come (log 2). -/
def State.setScript (s : State) (g : List Gap) : State := { s with script := g }

/-- The counter of gaps passed (log 3). -/
def State.setDraws (s : State) (n : Nat) : State := { s with draws := n }

/-- `PC <- (PC + 2) mod 2^16` (R109). -/
def State.advance (s : State) : State := s.setPc (s.pc + 2)

/-! ### Taking a fault (60_exceptions.md) -/

/-- The causes of `Fault` (R170; the split and the codes are the spec's decision D7, log 15). -/
inductive Cause where
  | fetchRange
  | dataRange
  | stackLow
  | stackHigh
  | keyIndex
deriving DecidableEq, Repr

/-- The code `FAULT_CAUSE` holds (R170). -/
def Cause.code : Cause → BitVec 3
  | .fetchRange => 1
  | .dataRange => 2
  | .stackLow => 3
  | .stackHigh => 4
  | .keyIndex => 5

/-- Fault entry (R172): the record is written, `PC` stays, nothing else changes. -/
def State.faulted (s : State) (c : Cause) (addr : Nat) : State :=
  { s with fault := true, faultCause := c.code, faultAddr := BitVec.ofNat 17 addr, faultPc := s.pc }

/-- `raise Fault(cause, addr)` (R8, R172), `s` being the state the step began with: a next state (log 1).
There is no return from it (R174). -/
def raise (c : Cause) (addr : Nat) (s : State) : Result := .next (s.faulted c addr)

/-- The fault record as `Reset` leaves it (R200). -/
def State.clearFault (s : State) : State :=
  { s with fault := false, faultCause := 0, faultAddr := 0, faultPc := 0 }

/-! ### Checked accesses -/

/-- `MemRead(addr, n)` with the calling rule's cause (R8), then `k` on the bytes. -/
def memRead (c : Cause) (addr n : Nat) (s : State) (k : List Byte → Result) : Result :=
  match firstOutOfRange s.params.memSize addr n with
  | some a => raise c a s
  | none => k (s.mem.readBytes addr n)

/-- `MemWrite(addr, n, bytes)` with the calling rule's cause (R8), then `k` on the state written. -/
def memWrite (c : Cause) (addr : Nat) (bytes : List Byte) (s : State) (k : State → Result) : Result :=
  match firstOutOfRange s.params.memSize addr bytes.length with
  | some a => raise c a s
  | none => k (s.setMem (s.mem.writeBytes addr bytes))

/-- The entries on the stack: two bytes each from `SP` up to `STACK_TOP` (R59). -/
def State.stackEntries (s : State) : Nat := (s.params.stackTop - s.sp.toNat) / 2

/-- No push is possible: `SP` would go below memory start, or the stack holds `STACK_LIMIT` entries (R59; decision D26,
log 26). -/
def State.stackFull (s : State) : Bool :=
  decide (s.sp.toNat < 2) || match s.params.stackLimit with
    | none => false
    | some limit => decide (limit ≤ s.stackEntries)

/-- `Push(ret)` (R59), then `k`. The last branch is the model's own stop (log 7). -/
def push (ret : Word) (s : State) (k : State → Result) : Result :=
  if s.stackFull then raise .stackLow s.sp.toNat s
  else match firstOutOfRange s.params.memSize (s.sp.toNat - 2) 2 with
    | none => k ((s.setMem (s.mem.writeBytes (s.sp.toNat - 2) (bytesOfWord ret))).setSp (s.sp - 2))
    | some _ => .fault .stackOutsideMemory

/-- `Pop()` (R59), then `k` on the popped word, whose bytes stay in memory. With `STACK_TOP <= MEM_SIZE` both bytes lie in
memory (R171); otherwise the last branch is the model's own stop (log 7). -/
def pop (s : State) (k : Word → State → Result) : Result :=
  if s.sp.toNat + 2 > s.params.stackTop then raise .stackHigh s.sp.toNat s
  else match firstOutOfRange s.params.memSize s.sp.toNat 2 with
    | none => k (s.mem.readWord s.sp.toNat) (s.setSp (s.sp + 2))
    | some _ => .fault .stackOutsideMemory

/-! ### Control flow -/

/-- The skip rule (R103). -/
def skipIf (c : Bool) (s : State) : Result := .next (s.setPc (if c then s.pc + 4 else s.pc + 2))

/-! ### Framebuffer -/

/-- `FB[y][x]` (R31); also the host's read port (R42). -/
def Frame.pixel (f : Frame) (y : Fin 32) (x : Fin 64) : Bool := f[y][x]

/-- `FB[y][x] <- b` (R31). -/
def Frame.setPixel (f : Frame) (y : Fin 32) (x : Fin 64) (b : Bool) : Frame :=
  f.set y.val (f[y].set x.val b x.isLt) y.isLt

/-- Every pixel off (R151). -/
def Frame.clear : Frame := Vector.replicate 32 (Vector.replicate 64 false)

/-- A framebuffer under drawing, with the collision found so far. -/
structure Drawing where
  fb : Frame
  collision : Bool
deriving DecidableEq, Repr

/-- The pixel-merge cell (R152, R153): sprite bit `bit` at row `y`, column `x`. -/
def Drawing.merge (d : Drawing) (y : Fin 32) (x : Fin 64) (bit : Bool) : Drawing :=
  if bit then
    { fb := d.fb.setPixel y x (d.fb.pixel y x ^^ true), collision := d.collision || d.fb.pixel y x }
  else d

/-- One sprite row: its 8 bits from bit 7 down land on columns `x0`, `x0 + 1`, … modulo 64 (R152). -/
def Drawing.row (d : Drawing) (x0 : Nat) (y : Fin 32) (bits : Byte) : Drawing :=
  [0, 1, 2, 3, 4, 5, 6, 7].foldl
    (fun d c => d.merge y (Fin.ofNat 64 (x0 + c)) (bits.getLsbD (7 - c))) d

/-- The sprite rows from row number `r` on: row `r` lands on line `y0 + r` modulo 32 (R152). -/
def Drawing.rows (x0 y0 : Nat) : Nat → List Byte → Drawing → Drawing
  | _, [], d => d
  | r, bits :: rest, d => Drawing.rows x0 y0 (r + 1) rest (d.row x0 (Fin.ofNat 32 (y0 + r)) bits)

/-- A sprite drawn on a framebuffer (R152). -/
def drawSprite (f : Frame) (x0 y0 : Nat) (rows : List Byte) : Drawing :=
  Drawing.rows x0 y0 0 rows ⟨f, false⟩

end Sys2Proof.Machine
end

