-- ==== Sys2Proof/Machine/Operands.lean ====
section
/-! DEFINITION. The operand forms: immediates (30_encoding.md R83), the one addressing mode (42_index_memory.md R140),
glyph addresses (R143), BCD digits (R144), register groups (R145, R146), sprite coordinates (R152), key numbers (R161). -/

namespace Sys2Proof.Machine

/-- `VF`, another name of `V[15]` (R22). -/
def vf : Reg := 15

/-- `zext_16(nnn)` (R83). -/
def zext16 (nnn : Addr12) : Word := nnn.setWidth 16

/-- The target of `JP V0, addr`: `(nnn + V[0]) mod 2^16` (R108). -/
def jumpV0Target (nnn : Addr12) (s : State) : Word := BitVec.ofNat 16 (nnn.toNat + (s.reg 0).toNat)

/-- `EA(k) = I + k`, a natural number, never truncated (R140). -/
def effAddr (s : State) (k : Nat) : Nat := s.i.toNat + k

/-- `I + V[x]` modulo 2^16 (R142). -/
def indexPlusReg (x : Reg) (s : State) : Word := s.i + (s.reg x).setWidth 16

/-- The glyph address of the low nibble of a value (R143). -/
def glyphAddr (b : Byte) : Word :=
  BitVec.ofNat 16 (Config.fontBase + Config.glyphBytes * (b.extractLsb' 0 4).toNat)

/-- Hundreds, tens and ones of a value, each a byte (R144). -/
def bcdDigits (b : Byte) : List Byte :=
  [BitVec.ofNat 8 (b.toNat / 100), BitVec.ofNat 8 (b.toNat / 10 % 10), BitVec.ofNat 8 (b.toNat % 10)]

/-- `[V[0], …, V[x]]` (R145). -/
def regGroup (x : Reg) (s : State) : List Byte := s.v.toList.take (x.val + 1)

/-- `V[k], V[k+1], … <- bytes` (R146); bytes past `V[15]` would have no register, and no rule asks for any. -/
def loadRegs (s : State) : Nat → List Byte → State
  | _, [] => s
  | k, b :: bs => loadRegs (if h : k < 16 then s.setReg ⟨k, h⟩ b else s) (k + 1) bs

/-- `I` after a register group moved: `(I + x + 1) mod 2^16` (R145, R146). -/
def indexPast (x : Reg) (s : State) : Word := s.i + BitVec.ofNat 16 (x.val + 1)

/-- The column `V[x] mod 64` of a sprite (R152). -/
def spriteCol (x : Reg) (s : State) : Nat := (s.reg x).toNat % Config.fbW

/-- The line `V[y] mod 32` of a sprite (R152). -/
def spriteLine (y : Reg) (s : State) : Nat := (s.reg y).toNat % Config.fbH

/-- The sprite bytes of `DRW` (R152), then `k`: with `n = 0` memory is not read and nothing can be out of range. -/
def spriteRows (n : Nibble) (s : State) (k : List Byte → Result) : Result :=
  if n = 0 then k [] else memRead .dataRange (effAddr s 0) n.toNat s k

/-- `keys[k] = 1` (R32). -/
def keyDown (s : State) (k : Nat) : Bool := s.keys.getLsbD k

/-- The key number `V[x]` of `SKP` and `SKNP`, all 8 bits (R161; the fault is the spec's decision D15, log 20), then `k`. -/
def keyNumber (x : Reg) (s : State) (k : Nat → Result) : Result :=
  if (s.reg x).toNat > 15 then raise .keyIndex (s.reg x).toNat s else k (s.reg x).toNat

/-- The pressed keys, lowest number first (R32). -/
def pressedKeys (keys : BitVec 16) : List Nat := (List.range 16).filter fun k => keys.getLsbD k

/-- The key that `LD Vx, K` takes, if any is pressed, as `KEY_SELECT` says (R163; decision D14, log 19). -/
def selectKey (s : State) : Option Nat :=
  match s.params.keySelect with
  | .lowest => (pressedKeys s.keys).head?
  | .anyPressed => (pressedKeys s.keys)[Config.freeKey s.draws % (pressedKeys s.keys).length]?

end Sys2Proof.Machine
end

