-- ==== Sys2Proof/Machine/Flags.lean ====
section
/-! DEFINITION. The results and flags of the five flag-writing ALU instructions (41_alu.md R120, R128 to R132) and the
order of their two writes (R121). Sums and differences are computed exactly and narrowed at the end. -/

namespace Sys2Proof.Machine

/-- The two values R121 speaks of: the 8-bit `result` and the one-bit `flag`. -/
structure AluOut where
  result : Byte
  flag : Bool
deriving DecidableEq, Repr

/-- `ADD` (R128): the sum modulo 256, and whether it exceeds 255. -/
def aluAdd (a b : Byte) : AluOut :=
  { result := BitVec.ofNat 8 (a.toNat + b.toNat), flag := decide (a.toNat + b.toNat > 255) }

/-- `SUB` (R129) of `b` from `a`: the difference modulo 256, and whether `a > b`, strictly. -/
def aluSub (a b : Byte) : AluOut :=
  { result := BitVec.ofInt 8 ((a.toNat : Int) - (b.toNat : Int)), flag := decide (a.toNat > b.toNat) }

/-- `SHR` (R130): the logical shift by one, and the bit shifted out. -/
def aluShr (a : Byte) : AluOut := { result := BitVec.ofNat 8 (a.toNat / 2), flag := a.getLsbD 0 }

/-- `SHL` (R132): the shift by one truncated to 8 bits, and the bit shifted out. -/
def aluShl (a : Byte) : AluOut := { result := BitVec.ofNat 8 (a.toNat * 2), flag := a.getLsbD 7 }

/-- A flag as `VF` holds it: 0x00 or 0x01 (R22). -/
def flagByte (f : Bool) : Byte := if f then 1 else 0

/-- `V[x] <- result` first, `V[15] <- flag` second, so that with `x = 15` the flag stays (R121; the spec's decision D13,
log 18). -/
def State.setResultFlag (s : State) (x : Reg) (o : AluOut) : State :=
  (s.setReg x o.result).setReg vf (flagByte o.flag)

/-- The two writes of a flag-writing instruction, then `PC + 2`. `VF_ORDER` decides whether `x = 15` is allowed (R121;
decision D13, log 18). -/
def writeResultFlag (x : Reg) (o : AluOut) (s : State) : Result :=
  match s.params.vfOrder with
  | .flagLast => .next (s.setResultFlag x o).advance
  | .refuse => if x = vf then .refused .flagRegisterDestination else .next (s.setResultFlag x o).advance

end Sys2Proof.Machine
end

