-- ==== Sys2Proof/Machine/Alu.lean ====
section
/-! DEFINITION. The register and ALU instructions (41_alu.md). None can fault (R171). -/

namespace Sys2Proof.Machine

/-- `LD Vx, byte` (R122). -/
def execLdByte (x : Reg) (kk : Byte) (s : State) : Result := .next (s.setReg x kk).advance

/-- `ADD Vx, byte` (R123): no flag. -/
def execAddByte (x : Reg) (kk : Byte) (s : State) : Result := .next (s.setReg x (s.reg x + kk)).advance

/-- `LD Vx, Vy` (R124). -/
def execLdReg (x y : Reg) (s : State) : Result := .next (s.setReg x (s.reg y)).advance

/-- `OR Vx, Vy` (R125): no flag. -/
def execOrReg (x y : Reg) (s : State) : Result := .next (s.setReg x (s.reg x ||| s.reg y)).advance

/-- `AND Vx, Vy` (R126): no flag. -/
def execAndReg (x y : Reg) (s : State) : Result := .next (s.setReg x (s.reg x &&& s.reg y)).advance

/-- `XOR Vx, Vy` (R127): no flag. -/
def execXorReg (x y : Reg) (s : State) : Result := .next (s.setReg x (s.reg x ^^^ s.reg y)).advance

/-- `ADD Vx, Vy` (R128). -/
def execAddReg (x y : Reg) (s : State) : Result :=
  writeResultFlag x (aluAdd (s.reg x) (s.reg y)) s

/-- `SUB Vx, Vy` (R129). -/
def execSub (x y : Reg) (s : State) : Result :=
  writeResultFlag x (aluSub (s.reg x) (s.reg y)) s

/-- `SHR Vx` (R130): `y` selects nothing (R85 c). -/
def execShr (x _y : Reg) (s : State) : Result := writeResultFlag x (aluShr (s.reg x)) s

/-- `SUBN Vx, Vy` (R131): `SUB` with the operands reversed, destination still `Vx`. -/
def execSubn (x y : Reg) (s : State) : Result :=
  writeResultFlag x (aluSub (s.reg y) (s.reg x)) s

/-- `SHL Vx` (R132): `y` selects nothing (R85 c). -/
def execShl (x _y : Reg) (s : State) : Result := writeResultFlag x (aluShl (s.reg x)) s

/-- `RND Vx, byte` (R133): the step's random input, a free value (R33, log 3). -/
def execRnd (x : Reg) (kk : Byte) (s : State) : Result := .next (s.setReg x (s.rnd &&& kk)).advance

end Sys2Proof.Machine
end

