-- ==== Sys2Proof/Machine/Display.lean ====
section
/-! DEFINITION. The display instructions (43_display.md). -/

namespace Sys2Proof.Machine

/-- `CLS` (R151): `VF` stays. -/
def execCls (s : State) : Result := .next (s.setFb Frame.clear).advance

/-- `DRW Vx, Vy, n` (R152): coordinates from the start of the step, `VF` written last and always. -/
def execDrw (x y : Reg) (n : Nibble) (s : State) : Result :=
  spriteRows n s fun rows =>
    let d := drawSprite s.fb (spriteCol x s) (spriteLine y s) rows
    .next ((s.setFb d.fb).setReg vf (flagByte d.collision)).advance

end Sys2Proof.Machine
end

