-- ==== Sys2Proof/Machine/Flow.lean ====
section
/-! DEFINITION. The control-transfer instructions (40_flow.md). -/

namespace Sys2Proof.Machine

/-- `RET` (R100): `PC` is the popped word, not incremented. -/
def execRet (s : State) : Result := pop s fun target t => .next (t.setPc target)

/-- `JP addr` (R101). -/
def execJp (nnn : Addr12) (s : State) : Result := .next (s.setPc (zext16 nnn))

/-- `CALL addr` (R102): pushes the address of the next instruction. -/
def execCall (nnn : Addr12) (s : State) : Result :=
  push (s.pc + 2) s fun t => .next (t.setPc (zext16 nnn))

/-- `SE Vx, byte` (R104). -/
def execSeByte (x : Reg) (kk : Byte) (s : State) : Result := skipIf (s.reg x == kk) s

/-- `SNE Vx, byte` (R105). -/
def execSneByte (x : Reg) (kk : Byte) (s : State) : Result := skipIf (s.reg x != kk) s

/-- `SE Vx, Vy` (R106). -/
def execSeReg (x y : Reg) (s : State) : Result := skipIf (s.reg x == s.reg y) s

/-- `SNE Vx, Vy` (R107). -/
def execSneReg (x y : Reg) (s : State) : Result := skipIf (s.reg x != s.reg y) s

/-- `JP V0, addr` (R108). -/
def execJpV0 (nnn : Addr12) (s : State) : Result := .next (s.setPc (jumpV0Target nnn s))

end Sys2Proof.Machine
end

