-- ==== Sys2Proof/Machine/Index.lean ====
section
/-! DEFINITION. The index-register and memory-transfer instructions (42_index_memory.md). -/

namespace Sys2Proof.Machine

/-- `LD I, addr` (R141). -/
def execLdI (nnn : Addr12) (s : State) : Result := .next (s.setI (zext16 nnn)).advance

/-- `ADD I, Vx` (R142): 16-bit wrap, no flag, no fault. -/
def execAddI (x : Reg) (s : State) : Result := .next (s.setI (indexPlusReg x s)).advance

/-- `LD F, Vx` (R143): the low nibble only; memory is not read. -/
def execLdF (x : Reg) (s : State) : Result := .next (s.setI (glyphAddr (s.reg x))).advance

/-- `LD B, Vx` (R144): `I` stays. -/
def execLdB (x : Reg) (s : State) : Result :=
  memWrite .dataRange (effAddr s 0) (bcdDigits (s.reg x)) s fun t => .next t.advance

/-- `LD [I], Vx` (R145): `V[0]` to `V[x]` stored, then `I` past them. -/
def execLdMemVx (x : Reg) (s : State) : Result :=
  memWrite .dataRange (effAddr s 0) (regGroup x s) s fun t => .next (t.setI (indexPast x s)).advance

/-- `LD Vx, [I]` (R146): `V[0]` to `V[x]` loaded, then `I` past them. -/
def execLdVxMem (x : Reg) (s : State) : Result :=
  memRead .dataRange (effAddr s 0) (x.val + 1) s fun bytes =>
    .next ((loadRegs s 0 bytes).setI (indexPast x s)).advance

end Sys2Proof.Machine
end

