-- ==== Sys2Proof/Machine/KeypadTimer.lean ====
section
/-! DEFINITION. The keypad and timer instructions (44_keypad_timer.md). -/

namespace Sys2Proof.Machine

/-- `SKP Vx` (R161). -/
def execSkp (x : Reg) (s : State) : Result := keyNumber x s fun k => skipIf (keyDown s k) s

/-- `SKNP Vx` (R162). -/
def execSknp (x : Reg) (s : State) : Result := keyNumber x s fun k => skipIf (!keyDown s k) s

/-- `LD Vx, K` (R163): with no key down only the output `waiting` rises and `PC` stays. -/
def execLdVxK (x : Reg) (s : State) : Result :=
  match selectKey s with
  | none => .next (s.setWaiting true)
  | some k => .next ((s.setReg x (BitVec.ofNat 8 k)).setWaiting false).advance

/-- `LD Vx, DT` (R164). -/
def execLdVxDt (x : Reg) (s : State) : Result := .next (s.setReg x s.dt).advance

/-- `LD DT, Vx` (R165). -/
def execLdDtVx (x : Reg) (s : State) : Result := .next (s.setDt (s.reg x)).advance

/-- `LD ST, Vx` (R166). -/
def execLdStVx (x : Reg) (s : State) : Result := .next (s.setSt (s.reg x)).advance

end Sys2Proof.Machine
end

