-- ==== Sys2Proof/Machine/Dispatch.lean ====
section
/-! DEFINITION. One arm per instruction. -/

namespace Sys2Proof.Machine

/-- What executing an instruction does: its rule's pseudocode, the new `PC` included (30_encoding.md R80). -/
def exec (i : Instr) (s : State) : Host.Outcome State Fault Refusal :=
  match i with
  | .cls => Sys2Proof.Machine.execCls s
  | .ret => Sys2Proof.Machine.execRet s
  | .jp nnn => Sys2Proof.Machine.execJp nnn s
  | .call nnn => Sys2Proof.Machine.execCall nnn s
  | .seByte x kk => Sys2Proof.Machine.execSeByte x kk s
  | .sneByte x kk => Sys2Proof.Machine.execSneByte x kk s
  | .seReg x y => Sys2Proof.Machine.execSeReg x y s
  | .ldByte x kk => Sys2Proof.Machine.execLdByte x kk s
  | .addByte x kk => Sys2Proof.Machine.execAddByte x kk s
  | .ldReg x y => Sys2Proof.Machine.execLdReg x y s
  | .orReg x y => Sys2Proof.Machine.execOrReg x y s
  | .andReg x y => Sys2Proof.Machine.execAndReg x y s
  | .xorReg x y => Sys2Proof.Machine.execXorReg x y s
  | .addReg x y => Sys2Proof.Machine.execAddReg x y s
  | .sub x y => Sys2Proof.Machine.execSub x y s
  | .shr x y => Sys2Proof.Machine.execShr x y s
  | .subn x y => Sys2Proof.Machine.execSubn x y s
  | .shl x y => Sys2Proof.Machine.execShl x y s
  | .sneReg x y => Sys2Proof.Machine.execSneReg x y s
  | .ldI nnn => Sys2Proof.Machine.execLdI nnn s
  | .jpV0 nnn => Sys2Proof.Machine.execJpV0 nnn s
  | .rnd x kk => Sys2Proof.Machine.execRnd x kk s
  | .drw x y n => Sys2Proof.Machine.execDrw x y n s
  | .skp x => Sys2Proof.Machine.execSkp x s
  | .sknp x => Sys2Proof.Machine.execSknp x s
  | .ldVxDt x => Sys2Proof.Machine.execLdVxDt x s
  | .ldVxK x => Sys2Proof.Machine.execLdVxK x s
  | .ldDtVx x => Sys2Proof.Machine.execLdDtVx x s
  | .ldStVx x => Sys2Proof.Machine.execLdStVx x s
  | .addI x => Sys2Proof.Machine.execAddI x s
  | .ldF x => Sys2Proof.Machine.execLdF x s
  | .ldB x => Sys2Proof.Machine.execLdB x s
  | .ldMemVx x => Sys2Proof.Machine.execLdMemVx x s
  | .ldVxMem x => Sys2Proof.Machine.execLdVxMem x s

end Sys2Proof.Machine
end

