-- ==== Sys2Proof/WellFormed.lean ====
section
/-! DEFINITION. The checks on what the types leave open. A term of `Instr` needs none: every value of its
fields is legal (30_encoding.md R83: "all 16 values are valid, so no register field can be out of range"). -/

namespace Sys2Proof

/-- Parameters that a machine may have (R5's constraints, decisions D2 and D4): room for one instruction at `PROG_BASE`
and no more than 2^16 bytes; an even `STACK_TOP` inside memory that a 16-bit `SP` can hold (log 26). -/
def Params.legal (p : Params) : Bool :=
  decide (Config.progBase + 2 ≤ p.memSize) && decide (p.memSize ≤ 2 ^ 16) &&
    decide (2 ≤ p.stackTop) && decide (p.stackTop ≤ p.memSize) && decide (p.stackTop < 2 ^ 16) &&
    decide (p.stackTop % 2 = 0)

/-- A program image the host may load into a memory of `memSize` bytes: it fits between `PROG_BASE` and the end (R40,
R200). -/
def imageFits (memSize : Nat) (program : List Byte) : Bool := program.length ≤ memSize - Config.progBase

/-- A `FONT` argument of `Reset`: exactly 80 bytes (R5, R58). -/
def fontFits (font : List Byte) : Bool := font.length == Config.glyphBytes * Config.glyphCount

/-- A word an assembler emits: the bits that R85 (a) and (b) call ignored are 0. -/
def canonicalWord (op : Word) : Bool :=
  match (fieldF op).toNat with
  | 0x0 => fieldX op == 0
  | 0x5 => fieldN op == 0
  | 0x9 => fieldN op == 0
  | _ => true

end Sys2Proof
end

