-- ==== Sys2Proof/Machine/Environment.lean ====
section
/-! DEFINITION. The timer unit's `Tick` (60_exceptions.md R184), the host's `Reset` (70_reset_and_hazards.md R200), and
the gap between one `Step` and the next (10_state.md R20; log 2, log 3). -/

namespace Sys2Proof.Machine

/-- One timer after `n` ticks: it counts down and clamps at 0 (R184). -/
def countDown (t : Byte) (n : Nat) : Byte := BitVec.ofNat 8 (t.toNat - n)

/-- `n` events `Tick` in a row (R184): both timers, nothing else, whatever the core's condition (R186). -/
def ticks (n : Nat) (s : State) : State := { s with dt := countDown s.dt n, st := countDown s.st n }

/-- The event `Tick` (R184). -/
def tick (s : State) : State := ticks 1 s

/-- `image(program)` (R201), for a given `FONT`. -/
def imageMemory (program font : List Byte) : Memory :=
  (Memory.writeBytes [] Config.fontBase font).writeBytes Config.progBase program

/-- The event `Reset(program)` (R200). The inputs are the host's and stay (log 5); an image that does not fit is
refused (R40, log 8). The parameters are the machine's (R35). -/
def reset (program font : List Byte) (s : State) : Result :=
  if fontFits font then
    if imageFits s.params.memSize program then
      .next { State.resetWith s.params with
        mem := imageMemory program font, keys := s.keys, rnd := s.rnd, script := s.script, draws := s.draws }
    else .refused .imageTooLong
  else .refused .fontNotEightyBytes

/-- `Reset(program)` with the default `FONT` and parameters, from nothing: the state a run of `program` starts in
(R200, log 22). -/
def boot (program : List Byte) : Result := reset program Config.font State.reset

/-- What follows `o` if it is a next state. -/
def andThen (o : Result) (k : State → Result) : Result :=
  match o with
  | .next s => k s
  | .fault r => .fault r
  | .refused r => .refused r

/-- One event of the timer unit or of the host (R20). -/
def applyEvent (e : Event) (s : State) : Result :=
  match e with
  | .tick => .next (tick s)
  | .reset program font => reset program font s

/-- Events in order, each on the state the one before it left (R63). -/
def applyEvents : List Event → State → Result
  | [], s => .next s
  | e :: es, s => andThen (applyEvent e s) (applyEvents es)

/-- The gap after a step. A scripted gap gives its events and the next inputs; with no gap left, free draws give the
number of ticks and the next inputs (R185, R32, R33; log 2, log 3). -/
def passGap (s : State) : Result :=
  match s.script with
  | g :: rest =>
    andThen (applyEvents g.events (s.setScript rest)) fun t =>
      .next ((t.setInputs g.keys g.rnd).setDraws (t.draws + 1))
  | [] =>
    .next (((ticks (Config.freeTicks s.draws) s).setInputs (Config.freeKeys s.draws)
      (Config.freeRnd s.draws)).setDraws (s.draws + 1))

end Sys2Proof.Machine
end

