-- ==== Sys2Proof/Machine/Cycle.lean ====
section
/-! DEFINITION. The event `Step` (30_encoding.md R80): reports, fetch, decode, execute; and placing a word where the
next step fetches. -/

namespace Sys2Proof.Machine

/-- The reports of the step before are over (R43: `waiting` lasts until the next step, `decode_fail` is a pulse). -/
def State.quiet (s : State) : State := ((s.setWaiting false).setDecodeFail false).setTrace none

/-- The state an instruction executes on: a fetched word is on the trace (R178, log 6). -/
def State.fetched (s : State) (op : Word) : State := s.quiet.setTrace (some ⟨s.pc, op⟩)

/-- A decode failure (R88, R177): reported, `PC + 2`, nothing else. -/
def decodeFailure (s : State) : State := (s.setDecodeFail true).advance

/-- Decode and execute the fetched word (R80). -/
def runWord (op : Word) (s : State) : Result :=
  match decodeWord op with
  | .ok i => exec i (s.fetched op)
  | .error _ => .next (decodeFailure (s.fetched op))

/-- The event `Step` (R80), with the inputs `s.keys` and `s.rnd`. A stopped core changes nothing and reports nothing
(R175); a fetch out of range is found before anything else (R176). -/
def coreStep (s : State) : Result :=
  if s.fault then .next s.quiet
  else match firstOutOfRange s.params.memSize s.pc.toNat 2 with
    | some a => raise .fetchRange a s.quiet
    | none => runWord (s.mem.readWord s.pc.toNat) s

/-- One step of the model: the event `Step`, then the gap before the next one (R20, log 2). -/
def cycle (s : State) : Result := andThen (coreStep s) passGap

/-- Where the next step can fetch: at `PC` if a word there is inside `MEM`, else at `RESET_PC`. -/
def fetchPlace (s : State) : Word :=
  match firstOutOfRange s.params.memSize s.pc.toNat 2 with
  | none => s.pc
  | some _ => Config.resetPc

/-- `op` placed where the next step fetches (R51), the core running, `PC` inside memory (log 22). -/
def placeWord (s : State) (op : Word) : State :=
  let t := if s.fault then s.clearFault else s
  (t.setPc (fetchPlace s)).setMem (s.mem.writeBytes (fetchPlace s).toNat (bytesOfWord op))

end Sys2Proof.Machine
end

