-- ==== Sys2Proof/Machine/Step.lean ====
section
/-! DEFINITION. The step of the machine and the placing of the word it runs next. -/

namespace Sys2Proof.Machine

/-- One step: the event `Step` and the gap after it (Machine/Cycle.lean). -/
def step (s : State) : Host.Outcome State Fault Refusal := cycle s

/-- `s` with a table row's word stored where `step` fetches (log 22). -/
def State.withFetchWord (s : State) (nbits w : Nat) : State := placeWord s (tableWord nbits w)

end Sys2Proof.Machine
end

