-- ==== Sys2Proof/Safety.lean ====
section
/-! DEFINITION. What counts as a safe state, what a run has come to, and the invariants every step keeps. -/

namespace Sys2Proof.Machine

/-- A state with `FAULT = 0`. A state with `FAULT = 1` is a fault outcome, never a normal final state (R175, log 1). -/
def State.Safe (s : State) : Prop := s.fault = false

/-- The program has finished (R204, the spec's own convention, decision D29): `FAULT = 0` and `PC` addresses an
instruction `JP PC`. -/
def State.finished (s : State) : Bool :=
  !s.fault && (firstOutOfRange s.params.memSize s.pc.toNat 2).isNone &&
    match decodeWord (s.mem.readWord s.pc.toNat) with
    | .ok (.jp nnn) => zext16 nnn == s.pc
    | _ => false

/-- What a run has come to (R175, R204). -/
inductive Verdict where
  | running
  | finished
  | faulted (cause : BitVec 3) (addr : BitVec 17) (pc : Word)
deriving DecidableEq, Repr

/-- A stopped core is a fault outcome, whatever `PC` addresses (R175). -/
def State.verdict (s : State) : Verdict :=
  if s.fault then .faulted s.faultCause s.faultAddr s.faultPc
  else if s.finished then .finished
  else .running

/-- The stack pointer is legal: `STACK_TOP - 2k` (R26), `STACK_TOP` being even, with `k` at most `STACK_LIMIT` where there
is one (log 26). -/
def State.SpLegal (s : State) : Prop :=
  s.sp.toNat ≤ s.params.stackTop ∧ s.sp.toNat % 2 = 0 ∧
    ∀ limit, s.params.stackLimit = some limit → s.stackEntries ≤ limit

/-- The fault record is clear while the core runs; once it is stopped it holds one of the five codes and the `PC` of
the faulting instruction, which is the `PC` the core stopped at (R29, R170, R172). -/
def State.RecordLegal (s : State) : Prop :=
  if s.fault then (1 ≤ s.faultCause.toNat ∧ s.faultCause.toNat ≤ 5) ∧ s.faultPc = s.pc
  else s.faultCause = 0 ∧ s.faultAddr = 0 ∧ s.faultPc = 0

/-- What holds of every state a run reaches. -/
structure State.Inv (s : State) : Prop where
  params : s.params.legal = true
  memory : s.mem.wf s.params.memSize = true
  stack : s.SpLegal
  record : s.RecordLegal

end Sys2Proof.Machine
end

