-- ==== Sys2Proof/Certificates/Slice0/Obligations.lean ====
section
/-! DEFINITION. The statements for the provers. First the words they are written in: the parts of a state, what a
transition keeps, and the shapes several statements share. -/

namespace Sys2Proof.Machine

/-- The parts of a state that a frame speaks of: everything but `PC`. -/
inductive Part where
  | reg (r : Reg)
  | index
  | sp
  | dt
  | st
  | fault
  | faultCause
  | faultAddr
  | faultPc
  | byte (a : Nat)
  | pixel (y : Fin 32) (x : Fin 64)
  | waiting
  | decodeFail
  | trace
  | keys
  | rnd
  | script
  | draws
  | params
deriving DecidableEq, Repr

/-- The part is the same in both states. A byte of memory is what a read of its address gives. -/
def Part.same (s t : State) : Part → Prop
  | .reg r => t.reg r = s.reg r
  | .index => t.i = s.i
  | .sp => t.sp = s.sp
  | .dt => t.dt = s.dt
  | .st => t.st = s.st
  | .fault => t.fault = s.fault
  | .faultCause => t.faultCause = s.faultCause
  | .faultAddr => t.faultAddr = s.faultAddr
  | .faultPc => t.faultPc = s.faultPc
  | .byte a => t.mem.read a = s.mem.read a
  | .pixel y x => t.fb.pixel y x = s.fb.pixel y x
  | .waiting => t.waiting = s.waiting
  | .decodeFail => t.decodeFail = s.decodeFail
  | .trace => t.trace = s.trace
  | .keys => t.keys = s.keys
  | .rnd => t.rnd = s.rnd
  | .script => t.script = s.script
  | .draws => t.draws = s.draws
  | .params => t.params = s.params

/-- The fault record (R29). -/
def Part.isRecord (p : Part) : Prop :=
  p = .fault ∨ p = .faultCause ∨ p = .faultAddr ∨ p = .faultPc

/-- The report outputs (R43). -/
def Part.isReport (p : Part) : Prop := p = .waiting ∨ p = .decodeFail ∨ p = .trace

/-- The environment's fields. -/
def Part.isInput (p : Part) : Prop := p = .keys ∨ p = .rnd ∨ p = .script ∨ p = .draws

/-- A byte of memory at one of `n` addresses from `a` up. -/
def Part.isByteIn (a n : Nat) (p : Part) : Prop := ∃ k, k < n ∧ p = .byte (a + k)

/-- The frame: every part but those written is the same. -/
def Keeps (s t : State) (written : Part → Prop) : Prop := ∀ p : Part, written p ∨ p.same s t

/-- `PC` has advanced by 2 modulo 2^16 (R109). -/
def Advances (s t : State) : Prop := t.pc.toNat = (s.pc.toNat + 2) % 2 ^ 16

/-- The outcome is a next state that satisfies `P`. -/
def Completes (r : Result) (P : State → Prop) : Prop := ∃ t, r = .next t ∧ P t

/-- The step ends by taking the fault with this cause code and this recorded address (R170, R172). -/
def Records (r : Result) (s : State) (cause addr : Nat) : Prop :=
  Completes r fun t =>
    t.fault = true ∧ t.faultCause.toNat = cause ∧ t.faultAddr.toNat = addr ∧ t.faultPc = s.pc ∧
      t.pc = s.pc ∧ Keeps s t Part.isRecord

/-- The skip rule (R103): plus 4 when `c` holds, plus 2 when not, and nothing else. -/
def SkipsWhen (c : Prop) (r : Result) (s : State) : Prop :=
  Completes r fun t =>
    (c → t.pc.toNat = (s.pc.toNat + 4) % 2 ^ 16) ∧ (¬ c → t.pc.toNat = (s.pc.toNat + 2) % 2 ^ 16) ∧
      Keeps s t fun _ => False

/-- One register is written with a value that satisfies `P`, `PC` advances, nothing else changes. -/
def WritesReg (r : Result) (s : State) (x : Reg) (P : Byte → Prop) : Prop :=
  Completes r fun t => Advances s t ∧ P (t.reg x) ∧ Keeps s t fun p => p = .reg x

/-- `V[x]` gets `result` unless it is `VF`, `VF` gets 1 when `flag` holds and 0 when not, `PC` advances, nothing else
changes. -/
def WritesResultAndFlag (r : Result) (s : State) (x : Reg) (result : Nat) (flag : Prop) : Prop :=
  Completes r fun t =>
    Advances s t ∧ (x ≠ vf → (t.reg x).toNat = result) ∧ (flag → t.reg vf = 1) ∧ (¬ flag → t.reg vf = 0) ∧
      Keeps s t fun p => p = .reg x ∨ p = .reg vf

/-- The value of `V[x]` as a number. -/
def regNat (s : State) (x : Reg) : Nat := (s.reg x).toNat

/-- The sprite bit that `DRW` puts over the pixel at line `py`, column `px` (R152): the pixel lies `r` lines below and
`c` columns right of the sprite's origin, both modulo the grid, inside the sprite's `n` rows of 8 bits. -/
def spriteBit (s : State) (x y : Reg) (n : Nibble) (py : Fin 32) (px : Fin 64) : Bool :=
  let r := (py.val + 32 - regNat s y % 32) % 32
  let c := (px.val + 64 - regNat s x % 64) % 64
  decide (r < n.toNat) && decide (c < 8) && (s.mem.read (s.i.toNat + r)).getLsbD (7 - c)

/-- A push has room: two bytes inside memory below `SP`, and fewer entries than `STACK_LIMIT`, where there is one
(R59; decision D26, log 26). -/
def State.HasStackRoom (s : State) : Prop :=
  2 ≤ s.sp.toNat ∧ s.sp.toNat ≤ s.params.memSize ∧
    ∀ limit, s.params.stackLimit = some limit → s.stackEntries < limit

/-- The coming gap holds no `Reset`. -/
def State.NoResetNext (s : State) : Prop :=
  ∀ g rest, s.script = g :: rest → ∀ program font, Event.reset program font ∉ g.events

end Sys2Proof.Machine

open Sys2Proof Sys2Proof.Machine

/-! ### Encoding -/

/-- R86: one word or more of every family, written out from its pattern, decodes to its instruction. The sub-opcodes
are the customary values (the spec's decision D11, log 10). -/
def Obligations.SampleWordsDecode : Prop :=
  decodeWord 0x00E0 = .ok .cls ∧ decodeWord 0x00EE = .ok .ret ∧
  decodeWord 0x1204 = .ok (.jp 0x204) ∧ decodeWord 0x2210 = .ok (.call 0x210) ∧
  decodeWord 0x3A7F = .ok (.seByte 10 0x7F) ∧ decodeWord 0x4A05 = .ok (.sneByte 10 0x05) ∧
  decodeWord 0x5120 = .ok (.seReg 1 2) ∧ decodeWord 0x6A2F = .ok (.ldByte 10 0x2F) ∧
  decodeWord 0x70FF = .ok (.addByte 0 0xFF) ∧ decodeWord 0x8127 = .ok (.subn 1 2) ∧
  decodeWord 0x9120 = .ok (.sneReg 1 2) ∧ decodeWord 0xA300 = .ok (.ldI 0x300) ∧
  decodeWord 0xBFFF = .ok (.jpV0 0xFFF) ∧ decodeWord 0xC20F = .ok (.rnd 2 0x0F) ∧
  decodeWord 0xD125 = .ok (.drw 1 2 5) ∧ decodeWord 0xE3A1 = .ok (.sknp 3) ∧
  decodeWord 0xF355 = .ok (.ldMemVx 3)

/-- R81, R82, R86: for every instruction, with every operand at every value, decoding its word, its bytes or its table
word gives it back. The numbers are the customary values (decision D11, log 10). -/
def Obligations.DecodeEncodeRoundTrip : Prop :=
  ∀ (i : Instr) (rest : List Byte),
    decodeWord (encode i) = .ok i ∧ decodeBytes (encodeBytes i ++ rest) = .ok (i, rest) ∧
      decodeTableWord 16 (encode i).toNat = some i

/-- R90: the rows are pairwise disjoint, with one mask in each family that dispatches further; a word that decodes
selects its instruction's row and no other, and a word that does not decode selects none. -/
def Obligations.DecodeTotalAndRowsDisjoint : Prop :=
  opcodeRows.length = 34 ∧
  opcodeRows.Pairwise (fun r q => ∀ w, ¬ (r.selects w = true ∧ q.selects w = true)) ∧
  (∀ r ∈ opcodeRows, (r.pattern.toNat / 4096 ∈ [0x0, 0xE, 0xF] → r.mask = 0xF0FF) ∧
    (r.pattern.toNat / 4096 = 0x8 → r.mask = 0xF00F)) ∧
  (∀ w i, decodeWord w = .ok i → ∀ r ∈ opcodeRows, r.selects w = true ↔ r = i.row) ∧
  (∀ w e, decodeWord w = .error e → ∀ r ∈ opcodeRows, r.selects w = false) ∧
  ∀ i : Instr, i.row ∈ opcodeRows

/-- R88's table: which words are decode failures. The sub-opcodes are the customary values (decision D11, log 10). -/
def Obligations.DecodeFailuresAreTheTabledWords : Prop :=
  ∀ w : Word, (∃ e, decodeWord w = .error e) ↔
    (w.toNat / 4096 = 0x0 ∧ w.toNat % 256 ∉ [0xE0, 0xEE]) ∨
    (w.toNat / 4096 = 0x8 ∧ w.toNat % 16 ∈ [0x8, 0x9, 0xA, 0xB, 0xC, 0xD, 0xF]) ∨
    (w.toNat / 4096 = 0xE ∧ w.toNat % 256 ∉ [0x9E, 0xA1]) ∨
    (w.toNat / 4096 = 0xF ∧ w.toNat % 256 ∉ [0x07, 0x0A, 0x15, 0x18, 0x1E, 0x29, 0x33, 0x55, 0x65])

/-- R85, the spec's decision D12 (log 11): the ignored bits select nothing, `SHR` and `SHL` do the same whatever `y`
is, and a word that decodes is the encoder's own word exactly when its ignored bits are 0. -/
def Obligations.IgnoredBitsSelectNothing : Prop :=
  (∀ x : Reg, decodeWord (wordXK 0x0 x 0xE0) = .ok .cls ∧ decodeWord (wordXK 0x0 x 0xEE) = .ok .ret) ∧
  (∀ (x y : Reg) (n : Nibble),
    decodeWord (wordXYN 0x5 x y n) = .ok (.seReg x y) ∧ decodeWord (wordXYN 0x9 x y n) = .ok (.sneReg x y)) ∧
  (∀ (x y y' : Reg) (s : State), exec (.shr x y) s = exec (.shr x y') s ∧ exec (.shl x y) s = exec (.shl x y') s) ∧
  ∀ w i, decodeWord w = .ok i → (encode i = w ↔ canonicalWord w = true)

/-- R51, R82: the fetched word in terms of its two bytes, the first in the high half, and all six fields. -/
def Obligations.FieldsOfTheTwoFetchedBytes : Prop :=
  ∀ (m : Memory) (a : Nat),
    let op := m.readWord a
    let b0 := (m.read a).toNat
    let b1 := (m.read (a + 1)).toNat
    op.toNat = 256 * b0 + b1 ∧ (fieldF op).toNat = b0 / 16 ∧ (fieldX op).val = b0 % 16 ∧
      (fieldY op).val = b1 / 16 ∧ (fieldN op).toNat = b1 % 16 ∧ (fieldKK op).toNat = b1 ∧
      (fieldNNN op).toNat = 256 * (b0 % 16) + b1

/-! ### The step -/

/-- R80: when the core runs, both bytes at `PC` are in memory and they decode to `i`, the event Step is `exec i` on the
state whose reports of the last step are over and whose trace carries `PC` and the word; the model's step is that, then
the gap before the next Step (log 2, log 6). -/
def Obligations.StepRunsTheDecodedInstruction : Prop :=
  ∀ (s : State) (i : Instr), s.fault = false → s.pc.toNat + 1 < s.params.memSize →
    decodeWord (s.mem.readWord s.pc.toNat) = .ok i →
    (s.fetched (s.mem.readWord s.pc.toNat)).pc = s.pc ∧
    (s.fetched (s.mem.readWord s.pc.toNat)).waiting = false ∧
    (s.fetched (s.mem.readWord s.pc.toNat)).decodeFail = false ∧
    (s.fetched (s.mem.readWord s.pc.toNat)).trace = some ⟨s.pc, s.mem.readWord s.pc.toNat⟩ ∧
    Keeps s (s.fetched (s.mem.readWord s.pc.toNat)) Part.isReport ∧
    coreStep s = exec i (s.fetched (s.mem.readWord s.pc.toNat)) ∧
    step s = andThen (exec i (s.fetched (s.mem.readWord s.pc.toNat))) passGap

/-- Log 22: a table word placed by `withFetchWord` in any state with legal parameters and a canonical memory is what the
next step executes, and in a running state whose `PC` is inside memory only the two bytes at `PC` may differ. -/
def Obligations.PlacedWordIsExecutedNext : Prop :=
  ∀ (s : State) (w : Word) (i : Instr), s.params.legal = true → s.mem.wf s.params.memSize = true →
    decodeWord w = .ok i →
    coreStep (s.withFetchWord 16 w.toNat) = exec i ((s.withFetchWord 16 w.toNat).fetched w) ∧
    (s.fault = false → s.pc.toNat + 1 < s.params.memSize →
      (s.withFetchWord 16 w.toNat).pc = s.pc ∧ Keeps s (s.withFetchWord 16 w.toNat) (Part.isByteIn s.pc.toNat 2))

/-- R88, R177: a word that does not decode is a reported no-op that advances `PC` by 2: `decode_fail` is raised with
`PC` and the word on the trace, and nothing but the reports changes (carrier of the report: decision D21, log 6). -/
def Obligations.DecodeFailureIsReportedNoOp : Prop :=
  ∀ (s : State) (e : DecodeReject), s.fault = false → s.pc.toNat + 1 < s.params.memSize →
    decodeWord (s.mem.readWord s.pc.toNat) = .error e →
    Completes (coreStep s) fun t =>
      Advances s t ∧ t.decodeFail = true ∧ t.waiting = false ∧
        t.trace = some ⟨s.pc, s.mem.readWord s.pc.toNat⟩ ∧ Keeps s t Part.isReport

/-- R80, R170: a fetch whose second byte, or both, lie outside memory takes the fault `FETCH_RANGE`, recording the
lowest address out of range, and reports nothing (code and record: decision D7, log 15). -/
def Obligations.FetchOutOfRangeFaults : Prop :=
  ∀ s : State, s.fault = false → s.params.memSize ≤ s.pc.toNat + 1 →
    Completes (coreStep s) fun t =>
      t.fault = true ∧ t.faultCause = 1 ∧ t.faultPc = s.pc ∧ t.pc = s.pc ∧
        (s.params.memSize ≤ s.pc.toNat → t.faultAddr.toNat = s.pc.toNat) ∧
        (s.pc.toNat < s.params.memSize → t.faultAddr.toNat = s.params.memSize) ∧
        t.waiting = false ∧ t.decodeFail = false ∧ t.trace = none ∧
        Keeps s t fun p => p.isRecord ∨ p.isReport

/-- R175 (decision D27, log 1, log 6): on a stopped core the event Step changes nothing and reports nothing. -/
def Obligations.StoppedCoreStepChangesNothing : Prop :=
  ∀ s : State, s.fault = true →
    Completes (coreStep s) fun t =>
      t.pc = s.pc ∧ Keeps s t Part.isReport ∧ t.waiting = false ∧ t.decodeFail = false ∧ t.trace = none

/-! ### Faults -/

/-- R173: when a Step takes a fault, the architectural state other than the fault record is the state before it. -/
def Obligations.FaultsArePrecise : Prop :=
  ∀ s t : State, s.fault = false → coreStep s = .next t → t.fault = true →
    t.pc = s.pc ∧ Keeps s t fun p => p.isRecord ∨ p.isReport

/-- R171: which instruction can raise which cause in its execute phase, and that no other raises any
(cause codes: decision D7, log 15; `KEY_INDEX`: decision D15, log 20). -/
def Obligations.OnlyTheListedInstructionsFault : Prop :=
  ∀ (i : Instr) (s t : State), s.fault = false → exec i s = .next t → t.fault = true →
    match i with
    | .call _ => t.faultCause = 3
    | .ret => t.faultCause = 4
    | .drw _ _ _ => t.faultCause = 2
    | .ldB _ => t.faultCause = 2
    | .ldMemVx _ => t.faultCause = 2
    | .ldVxMem _ => t.faultCause = 2
    | .skp _ => t.faultCause = 5
    | .sknp _ => t.faultCause = 5
    | _ => False

/-- R170: when each execute-phase cause is raised and what is recorded
(codes and record: decision D7, log 15; `STACK_LIMIT`: decision D26, log 26; `KEY_INDEX`: decision D15, log 20). -/
def Obligations.ExecutePhaseFaultsAreRecorded : Prop :=
  ∀ s : State,
    (∀ nnn, s.sp.toNat < 2 → Records (exec (.call nnn) s) s 3 s.sp.toNat) ∧
    (∀ nnn limit, s.params.stackLimit = some limit → limit ≤ s.stackEntries →
      Records (exec (.call nnn) s) s 3 s.sp.toNat) ∧
    (s.params.stackTop < s.sp.toNat + 2 → Records (exec .ret s) s 4 s.sp.toNat) ∧
    (∀ x y n, n ≠ 0 → s.params.memSize < s.i.toNat + n.toNat → Records (exec (.drw x y n) s) s 2 (max s.i.toNat s.params.memSize)) ∧
    (∀ x, s.params.memSize ≤ s.i.toNat + 2 → Records (exec (.ldB x) s) s 2 (max s.i.toNat s.params.memSize)) ∧
    (∀ x, s.params.memSize ≤ s.i.toNat + x.val → Records (exec (.ldMemVx x) s) s 2 (max s.i.toNat s.params.memSize)) ∧
    (∀ x, s.params.memSize ≤ s.i.toNat + x.val → Records (exec (.ldVxMem x) s) s 2 (max s.i.toNat s.params.memSize)) ∧
    (∀ x, 15 < regNat s x → Records (exec (.skp x) s) s 5 (regNat s x)) ∧
    (∀ x, 15 < regNat s x → Records (exec (.sknp x) s) s 5 (regNat s x))

/-- R174, R175, R186: a stopped core stays stopped, with its record and all else but the timers, the reports and the
inputs, through every step whose gap holds no `Reset`. -/
def Obligations.OnlyResetLeavesAFault : Prop :=
  ∀ s t : State, s.fault = true → s.NoResetNext → step s = .next t →
    t.fault = true ∧ t.pc = s.pc ∧ Keeps s t fun p => p = .dt ∨ p = .st ∨ p.isReport ∨ p.isInput

/-! ### Control flow -/

/-- R101, R108: where the two jumps go; nothing else changes. -/
def Obligations.JumpsSetOnlyPc : Prop :=
  ∀ (nnn : Addr12) (s : State),
    (Completes (exec (.jp nnn) s) fun t => t.pc.toNat = nnn.toNat ∧ Keeps s t fun _ => False) ∧
    (Completes (exec (.jpV0 nnn) s) fun t =>
      t.pc.toNat = (nnn.toNat + regNat s 0) % 2 ^ 16 ∧ Keeps s t fun _ => False)

/-- R102 with the stack byte order of decision D5 (log 13): `CALL` stores the address of the next instruction in the two
bytes below `SP`, high byte lower, moves `SP` down by 2 and jumps; nothing else changes. -/
def Obligations.CallPushesReturnAddress : Prop :=
  ∀ (nnn : Addr12) (s : State), s.mem.wf s.params.memSize = true → s.HasStackRoom →
    Completes (exec (.call nnn) s) fun t =>
      t.pc.toNat = nnn.toNat ∧ t.sp.toNat = s.sp.toNat - 2 ∧
        (t.mem.read (s.sp.toNat - 2)).toNat = (s.pc.toNat + 2) % 2 ^ 16 / 256 ∧
        (t.mem.read (s.sp.toNat - 2 + 1)).toNat = (s.pc.toNat + 2) % 256 ∧
        Keeps s t fun p => p = .sp ∨ p.isByteIn (s.sp.toNat - 2) 2

/-- R100 with the stack byte order of decision D5 (log 13): `RET` loads all 16 bits of the two bytes at `SP` into `PC`,
high byte lower, and moves `SP` up by 2; nothing else changes, the two bytes included. -/
def Obligations.RetPopsReturnAddress : Prop :=
  ∀ s : State, s.params.legal = true → s.sp.toNat + 2 ≤ s.params.stackTop →
    Completes (exec .ret s) fun t =>
      t.pc.toNat = 256 * (s.mem.read s.sp.toNat).toNat + (s.mem.read (s.sp.toNat + 1)).toNat ∧
        t.sp.toNat = s.sp.toNat + 2 ∧ Keeps s t fun p => p = .sp

/-- The source's round trip (95_test_vectors.md S3): `CALL` then `RET` returns to the instruction after the `CALL`, at
any depth, and leaves only the two bytes the call wrote. -/
def Obligations.CallThenRetReturns : Prop :=
  ∀ (nnn : Addr12) (s : State), s.params.legal = true → s.mem.wf s.params.memSize = true → s.HasStackRoom →
    s.sp.toNat ≤ s.params.stackTop →
    Completes (exec (.call nnn) s) fun t =>
      Completes (exec .ret t) fun u =>
        u.pc.toNat = (s.pc.toNat + 2) % 2 ^ 16 ∧ Keeps s u (Part.isByteIn (s.sp.toNat - 2) 2)

/-- The model's own stops: `CALL` with `SP` above `MEM_SIZE`, `RET` with a pop between `MEM_SIZE` and `STACK_TOP` (log 7),
and, on a machine whose `VF_ORDER` is `refuse`, the five flag writers with `x = 15` (decision D13, log 18). In no other
case does any instruction fail to answer a next state. -/
def Obligations.OnlyTheListedCasesStop : Prop :=
  ∀ (i : Instr) (s : State),
    (∀ nnn, i = .call nnn → 2 ≤ s.sp.toNat → s.params.memSize < s.sp.toNat →
      (∀ limit, s.params.stackLimit = some limit → s.stackEntries < limit) →
      exec i s = .fault .stackOutsideMemory) ∧
    (i = .ret → s.sp.toNat + 2 ≤ s.params.stackTop → s.params.memSize < s.sp.toNat + 2 →
      exec i s = .fault .stackOutsideMemory) ∧
    (s.params.vfOrder = .refuse → ∀ y, i ∈ [.addReg vf y, .sub vf y, .shr vf y, .subn vf y, .shl vf y] →
      exec i s = .refused .flagRegisterDestination) ∧
    ((∀ t, exec i s ≠ .next t) →
      (∃ nnn, i = .call nnn ∧ s.params.memSize < s.sp.toNat) ∨
      (i = .ret ∧ s.params.memSize < s.sp.toNat + 2 ∧ s.sp.toNat + 2 ≤ s.params.stackTop) ∨
      (s.params.vfOrder = .refuse ∧ ∃ y, i ∈ [.addReg vf y, .sub vf y, .shr vf y, .subn vf y, .shl vf y]))

/-- R103 to R107, and R103 for `SKP` and `SKNP` with a key number in range: the six skips. -/
def Obligations.SkipsAdvanceByFourOrTwo : Prop :=
  ∀ (x y : Reg) (kk : Byte) (s : State),
    SkipsWhen (s.reg x = kk) (exec (.seByte x kk) s) s ∧
    SkipsWhen (s.reg x ≠ kk) (exec (.sneByte x kk) s) s ∧
    SkipsWhen (s.reg x = s.reg y) (exec (.seReg x y) s) s ∧
    SkipsWhen (s.reg x ≠ s.reg y) (exec (.sneReg x y) s) s ∧
    (regNat s x ≤ 15 →
      SkipsWhen (s.keys.getLsbD (regNat s x) = true) (exec (.skp x) s) s ∧
      SkipsWhen (s.keys.getLsbD (regNat s x) = false) (exec (.sknp x) s) s)

/-! ### ALU -/

/-- R122 to R127: the loads, the add with an immediate and the logic write `V[x]` alone, and no flag. -/
def Obligations.LoadsAddByteAndLogicWriteOneRegister : Prop :=
  ∀ (x y : Reg) (kk : Byte) (s : State),
    (WritesReg (exec (.ldByte x kk) s) s x fun b => b = kk) ∧
    (WritesReg (exec (.addByte x kk) s) s x fun b => b.toNat = (regNat s x + kk.toNat) % 256) ∧
    (WritesReg (exec (.ldReg x y) s) s x fun b => b = s.reg y) ∧
    (WritesReg (exec (.orReg x y) s) s x fun b =>
      ∀ k < 8, b.getLsbD k = ((s.reg x).getLsbD k || (s.reg y).getLsbD k)) ∧
    (WritesReg (exec (.andReg x y) s) s x fun b =>
      ∀ k < 8, b.getLsbD k = ((s.reg x).getLsbD k && (s.reg y).getLsbD k)) ∧
    (WritesReg (exec (.xorReg x y) s) s x fun b =>
      ∀ k < 8, b.getLsbD k = ((s.reg x).getLsbD k ^^ (s.reg y).getLsbD k))

/-- R128 to R132: result, flag and frame of the five flag writers, for every `x` and `y` that `VF_ORDER` allows. That with
destination `VF` the flag is what stays is the spec's decision D13 (log 18). -/
def Obligations.FlagAluWritesResultThenFlag : Prop :=
  ∀ (x y : Reg) (s : State), s.params.vfOrder = .flagLast ∨ x ≠ vf →
    WritesResultAndFlag (exec (.addReg x y) s) s x
      ((regNat s x + regNat s y) % 256) (255 < regNat s x + regNat s y) ∧
    WritesResultAndFlag (exec (.sub x y) s) s x
      ((regNat s x + 256 - regNat s y) % 256) (regNat s y < regNat s x) ∧
    WritesResultAndFlag (exec (.shr x y) s) s x (regNat s x / 2) (regNat s x % 2 = 1) ∧
    WritesResultAndFlag (exec (.subn x y) s) s x
      ((regNat s y + 256 - regNat s x) % 256) (regNat s x < regNat s y) ∧
    WritesResultAndFlag (exec (.shl x y) s) s x (2 * regNat s x % 256) (128 ≤ regNat s x)

/-- R133: `RND` writes the step's random byte, whatever it is, masked with the immediate. -/
def Obligations.RndMasksTheRandomByte : Prop :=
  ∀ (x : Reg) (kk b : Byte) (s : State), s.rnd = b →
    WritesReg (exec (.rnd x kk) s) s x fun v =>
      (∀ k < 8, v.getLsbD k = (b.getLsbD k && kk.getLsbD k)) ∧ v &&& ~~~kk = 0 ∧ (kk = 0 → v = 0)

/-- R22: `VF` changes only by the six flag writers, which leave 0 or 1 in it, or as the named destination. -/
def Obligations.VfChangesOnlyByFlagWritersOrAsDestination : Prop :=
  ∀ (i : Instr) (s t : State), exec i s = .next t → t.reg vf ≠ s.reg vf →
    match i with
    | .addReg _ _ => t.reg vf = 0 ∨ t.reg vf = 1
    | .sub _ _ => t.reg vf = 0 ∨ t.reg vf = 1
    | .shr _ _ => t.reg vf = 0 ∨ t.reg vf = 1
    | .subn _ _ => t.reg vf = 0 ∨ t.reg vf = 1
    | .shl _ _ => t.reg vf = 0 ∨ t.reg vf = 1
    | .drw _ _ _ => t.reg vf = 0 ∨ t.reg vf = 1
    | .ldByte x _ => x = vf
    | .addByte x _ => x = vf
    | .ldReg x _ => x = vf
    | .orReg x _ => x = vf
    | .andReg x _ => x = vf
    | .xorReg x _ => x = vf
    | .rnd x _ => x = vf
    | .ldVxDt x => x = vf
    | .ldVxK x => x = vf
    | .ldVxMem x => x = vf
    | _ => False

/-! ### Index register and memory -/

/-- R141 to R143: the three instructions that write `I` alone. -/
def Obligations.IndexInstructionsWriteOnlyI : Prop :=
  ∀ (nnn : Addr12) (x : Reg) (s : State),
    (Completes (exec (.ldI nnn) s) fun t =>
      Advances s t ∧ t.i.toNat = nnn.toNat ∧ Keeps s t fun p => p = .index) ∧
    (Completes (exec (.addI x) s) fun t =>
      Advances s t ∧ t.i.toNat = (s.i.toNat + regNat s x) % 2 ^ 16 ∧ Keeps s t fun p => p = .index) ∧
    (Completes (exec (.ldF x) s) fun t =>
      Advances s t ∧ t.i.toNat = 5 * (regNat s x % 16) ∧ Keeps s t fun p => p = .index)

/-- R144: the three digits of `V[x]`, most significant first, at `I` up; `I` stays; the fault `DATA_RANGE` and nothing
else when a byte would be out of range (its code 2 and the record: decision D7, log 15). -/
def Obligations.BcdStoresThreeDigits : Prop :=
  ∀ (x : Reg) (s : State), s.mem.wf s.params.memSize = true →
    (effAddr s 2 < s.params.memSize → Completes (exec (.ldB x) s) fun t =>
      Advances s t ∧ (t.mem.read (effAddr s 0)).toNat = regNat s x / 100 ∧
        (t.mem.read (effAddr s 1)).toNat = regNat s x / 10 % 10 ∧
        (t.mem.read (effAddr s 2)).toNat = regNat s x % 10 ∧
        Keeps s t (Part.isByteIn (effAddr s 0) 3)) ∧
    (s.params.memSize ≤ effAddr s 2 → Records (exec (.ldB x) s) s 2 (max (effAddr s 0) s.params.memSize))

/-- R145: `V[0]` to `V[x]` stored at `I` up, lowest register first, then `I` past them; the fault `DATA_RANGE` and
nothing else when a byte would be out of range (its code 2 and the record: decision D7, log 15). -/
def Obligations.RegisterDumpStoresTheGroup : Prop :=
  ∀ (x : Reg) (s : State), s.mem.wf s.params.memSize = true →
    (effAddr s x.val < s.params.memSize → Completes (exec (.ldMemVx x) s) fun t =>
      Advances s t ∧ t.i.toNat = (s.i.toNat + x.val + 1) % 2 ^ 16 ∧
        (∀ k : Reg, k ≤ x → t.mem.read (effAddr s k.val) = s.reg k) ∧
        Keeps s t fun p => p = .index ∨ p.isByteIn (effAddr s 0) (x.val + 1)) ∧
    (s.params.memSize ≤ effAddr s x.val → Records (exec (.ldMemVx x) s) s 2 (max (effAddr s 0) s.params.memSize))

/-- R146: `V[0]` to `V[x]` loaded from `I` up, lowest register first, then `I` past them; memory and the other registers
stay; the fault `DATA_RANGE` and nothing else when a byte would be out of range (its code 2 and the record: decision
D7, log 15). -/
def Obligations.RegisterLoadReadsTheGroup : Prop :=
  ∀ (x : Reg) (s : State),
    (effAddr s x.val < s.params.memSize → Completes (exec (.ldVxMem x) s) fun t =>
      Advances s t ∧ t.i.toNat = (s.i.toNat + x.val + 1) % 2 ^ 16 ∧
        (∀ k : Reg, k ≤ x → t.reg k = s.mem.read (effAddr s k.val)) ∧
        Keeps s t fun p => p = .index ∨ ∃ k : Reg, k ≤ x ∧ p = .reg k) ∧
    (s.params.memSize ≤ effAddr s x.val → Records (exec (.ldVxMem x) s) s 2 (max (effAddr s 0) s.params.memSize))

/-- The source's round trip (95_test_vectors.md S7, 90_conflicts.md C10): a register dump, then, with `I` back at its
start and any registers, the register load of the same group restores it; both leave `I` past the group. -/
def Obligations.DumpThenLoadRestoresRegisters : Prop :=
  ∀ (x : Reg) (s : State), s.mem.wf s.params.memSize = true → effAddr s x.val < s.params.memSize →
    Completes (exec (.ldMemVx x) s) fun t =>
      ∀ u : State, u.params = t.params → u.mem = t.mem → u.i = s.i →
        Completes (exec (.ldVxMem x) u) fun w =>
          (∀ k : Reg, k ≤ x → w.reg k = s.reg k) ∧ w.i = t.i

/-- R65 (decision D19, log 21): when a register dump covers the next instruction, the next step executes the bytes just
stored. -/
def Obligations.StoredBytesAreFetchedNext : Prop :=
  ∀ (x j k : Reg) (s : State), s.params.legal = true → s.mem.wf s.params.memSize = true → s.fault = false →
    effAddr s x.val < s.params.memSize →
    effAddr s j.val = s.pc.toNat + 2 → effAddr s k.val = s.pc.toNat + 3 → k ≤ x →
    Completes (exec (.ldMemVx x) s) fun t =>
      t.pc.toNat = s.pc.toNat + 2 ∧ coreStep t = runWord (wordOfBytes (s.reg j) (s.reg k)) t

/-! ### Display -/

/-- R151: every pixel off, nothing else. -/
def Obligations.ClsClearsEveryPixel : Prop :=
  ∀ s : State, Completes (exec .cls s) fun t =>
    Advances s t ∧ (∀ y x, t.fb.pixel y x = false) ∧ Keeps s t fun p => ∃ y x, p = .pixel y x

/-- R152, R153: every pixel is exclusive-ored with the sprite bit over it, wrapping at both edges; `VF` is 1 exactly when
a lit pixel was turned off; nothing else changes; with a sprite byte out of range the fault `DATA_RANGE` and nothing
else (its code 2 and the record: decision D7, log 15). On corner case (e) of R152 see log 25. -/
def Obligations.DrwXorsTheSpriteAndReportsCollision : Prop :=
  ∀ (x y : Reg) (n : Nibble) (s : State),
    (n = 0 ∨ s.i.toNat + n.toNat ≤ s.params.memSize → Completes (exec (.drw x y n) s) fun t =>
      Advances s t ∧
        (∀ py px, t.fb.pixel py px = (s.fb.pixel py px ^^ spriteBit s x y n py px)) ∧
        ((∃ py px, s.fb.pixel py px = true ∧ t.fb.pixel py px = false) → t.reg vf = 1) ∧
        ((¬ ∃ py px, s.fb.pixel py px = true ∧ t.fb.pixel py px = false) → t.reg vf = 0) ∧
        Keeps s t fun p => p = .reg vf ∨ ∃ py px, p = .pixel py px) ∧
    (n ≠ 0 → s.params.memSize < s.i.toNat + n.toNat → Records (exec (.drw x y n) s) s 2 (max (effAddr s 0) s.params.memSize))

/-- From R152 (log 25 on its corner case e): the same sprite drawn twice at one place restores the framebuffer, and the
second drawing collides exactly when some set sprite bit lay over a pixel that was off at first. -/
def Obligations.DrwTwiceRestoresTheFramebuffer : Prop :=
  ∀ (x y : Reg) (n : Nibble) (s : State), x ≠ 15 → y ≠ 15 → (n = 0 ∨ s.i.toNat + n.toNat ≤ s.params.memSize) →
    Completes (exec (.drw x y n) s) fun t =>
      Completes (exec (.drw x y n) t) fun u =>
        (∀ py px, u.fb.pixel py px = s.fb.pixel py px) ∧
          (u.reg vf = 1 ↔ ∃ py px, spriteBit s x y n py px = true ∧ s.fb.pixel py px = false)

/-! ### Keypad and timers -/

/-- R163: with no key down nothing changes but `waiting`; otherwise the number of a pressed key goes to `V[x]`, with the
default `KEY_SELECT` of the lowest one (decision D14, log 19). -/
def Obligations.KeyWaitBlocksOrTakesPressedKey : Prop :=
  ∀ (x : Reg) (s : State),
    (s.keys = 0 → Completes (exec (.ldVxK x) s) fun t =>
      t.pc = s.pc ∧ t.waiting = true ∧ Keeps s t fun p => p = .waiting) ∧
    (s.keys ≠ 0 → Completes (exec (.ldVxK x) s) fun t =>
      Advances s t ∧ t.waiting = false ∧ (Keeps s t fun p => p = .reg x ∨ p = .waiting) ∧
        (t.reg x).toNat < 16 ∧ s.keys.getLsbD (t.reg x).toNat = true ∧
        (s.params.keySelect = .lowest → ∀ k < (t.reg x).toNat, s.keys.getLsbD k = false))

/-- R164 to R166: the three moves between a register and a timer. -/
def Obligations.TimerMovesCopyOneByte : Prop :=
  ∀ (x : Reg) (s : State),
    (WritesReg (exec (.ldVxDt x) s) s x fun b => b = s.dt) ∧
    (Completes (exec (.ldDtVx x) s) fun t =>
      Advances s t ∧ t.dt = s.reg x ∧ Keeps s t fun p => p = .dt) ∧
    (Completes (exec (.ldStVx x) s) fun t =>
      Advances s t ∧ t.st = s.reg x ∧ Keeps s t fun p => p = .st)

/-- R184: one `Tick` takes one from each non-zero timer and nothing else; `n` of them take `n`, stopping at 0. -/
def Obligations.TickCountsDownAndClamps : Prop :=
  ∀ s : State,
    ((tick s).pc = s.pc ∧ (0 < s.dt.toNat → (tick s).dt.toNat = s.dt.toNat - 1) ∧
      (s.dt = 0 → (tick s).dt = 0) ∧ (0 < s.st.toNat → (tick s).st.toNat = s.st.toNat - 1) ∧
      (s.st = 0 → (tick s).st = 0) ∧ Keeps s (tick s) fun p => p = .dt ∨ p = .st) ∧
    ∀ n : Nat, Completes (applyEvents (List.replicate n .tick) s) fun t =>
      t.dt.toNat = s.dt.toNat - n ∧ t.st.toNat = s.st.toNat - n ∧ t.pc = s.pc ∧ Keeps s t fun p => p = .dt ∨ p = .st

/-- R212: through a step whose gap holds no `Reset`, `DT` rises only if the step executed `LD DT, Vx`. -/
def Obligations.DelayTimerRisesOnlyByLoad : Prop :=
  ∀ s t : State, s.NoResetNext → step s = .next t → s.dt.toNat < t.dt.toNat →
    ∃ x, decodeWord (s.mem.readWord s.pc.toNat) = .ok (.ldDtVx x)

/-! ### Reset and the environment -/

/-- R200, R201, R58: what `Reset(program)` with a `FONT` of 80 bytes leaves, from any state with legal parameters, a stopped
core's included, and that an image that does not fit or another `FONT` is refused (log 8). The values rest on the spec's
decisions D4, D7, D8 and D9 (logs 12, 15 to 17). That the host's `keys` and `rnd` and the model's `script` and `draws`
stay is the model's choice (log 5, DESIGN CHOICE). -/
def Obligations.ResetBuildsStateAndImage : Prop :=
  ∀ (program font : List Byte) (s : State), s.params.legal = true →
    (0x200 + program.length ≤ s.params.memSize → font.length = 80 → Completes (reset program font s) fun t =>
      t.pc.toNat = 0x200 ∧ t.sp.toNat = s.params.stackTop ∧ (∀ r, t.reg r = 0) ∧ t.i = 0 ∧ t.dt = 0 ∧ t.st = 0 ∧
        t.fault = false ∧ t.faultCause = 0 ∧ t.faultAddr = 0 ∧ t.faultPc = 0 ∧
        (∀ y x, t.fb.pixel y x = false) ∧ t.mem.wf s.params.memSize = true ∧
        (∀ k (h : k < font.length), t.mem.read k = font[k]) ∧
        (∀ a, 80 ≤ a → a < 0x200 → t.mem.read a = 0) ∧
        (∀ k (h : k < program.length), t.mem.read (0x200 + k) = program[k]) ∧
        (∀ a, 0x200 + program.length ≤ a → a < s.params.memSize → t.mem.read a = 0) ∧
        t.keys = s.keys ∧ t.rnd = s.rnd ∧ t.script = s.script ∧ t.draws = s.draws ∧ t.params = s.params) ∧
    (s.params.memSize < 0x200 + program.length → font.length = 80 →
      reset program font s = .refused .imageTooLong) ∧
    (font.length ≠ 80 → reset program font s = .refused .fontNotEightyBytes)

/-- Log 2, log 3: what the gap after the event Step does. A scripted gap of `n` ticks takes `n` from both timers and gives
the next step its inputs; a scripted `Reset` is that event on the state the event Step left; with no gap scripted, some
number of ticks passes. All else stays as the event Step left it. -/
def Obligations.GapGivesTicksResetsAndInputs : Prop :=
  ∀ s c : State, coreStep s = .next c →
    (∀ (n : Nat) (keys : BitVec 16) (rnd : Byte) (rest : List Gap),
      s.script = ⟨List.replicate n .tick, keys, rnd⟩ :: rest →
      Completes (step s) fun t =>
        t.keys = keys ∧ t.rnd = rnd ∧ t.script = rest ∧ t.draws = s.draws + 1 ∧ t.pc = c.pc ∧
          t.dt.toNat = c.dt.toNat - n ∧ t.st.toNat = c.st.toNat - n ∧
          Keeps c t fun p => p = .dt ∨ p = .st ∨ p.isInput) ∧
    (∀ (program font : List Byte) (keys : BitVec 16) (rnd : Byte) (rest : List Gap),
      s.script = ⟨[.reset program font], keys, rnd⟩ :: rest →
      step s = andThen (reset program font (c.setScript rest)) fun t =>
        .next ((t.setInputs keys rnd).setDraws (s.draws + 1))) ∧
    (s.script = [] →
      Completes (step s) fun t =>
        t.script = [] ∧ t.draws = s.draws + 1 ∧ t.pc = c.pc ∧
          (∃ n, t.dt.toNat = c.dt.toNat - n ∧ t.st.toNat = c.st.toNat - n) ∧
          Keeps c t fun p => p = .dt ∨ p = .st ∨ p.isInput)

/-! ### The whole machine -/

/-- The invariant `State.Inv` holds after reset: of the default machine, with or without a program image, and of every
machine with legal parameters, after any `Reset` that is not refused. -/
def Obligations.ResetStatesHoldTheInvariant : Prop :=
  State.reset.Inv ∧ (∀ program : List Byte, program.length ≤ 3584 → Completes (boot program) State.Inv) ∧
    (∀ p : Params, p.legal = true → (State.resetWith p).Inv) ∧
    ∀ (program font : List Byte) (s t : State), s.params.legal = true → reset program font s = .next t → t.Inv

/-- Every step keeps the invariant: parameters legal, memory canonical, `SP` even, at most `STACK_TOP` (R26) and within
`STACK_LIMIT`, the fault record clear while the core runs and complete once it is stopped (R29, R170, R172). -/
def Obligations.EveryStepKeepsTheInvariant : Prop :=
  ∀ s t : State, s.Inv → step s = .next t → t.Inv

/-- R35: no step changes the parameters, whatever its gap holds. -/
def Obligations.NoStepChangesTheParameters : Prop :=
  ∀ s t : State, step s = .next t → t.params = s.params

/-- In a state that meets the invariant, on a machine with the default `VF_ORDER` (decision D13, log 18), with no `Reset` in
the coming gap, every step answers a next state. -/
def Obligations.EveryStepAnswersANextState : Prop :=
  ∀ s : State, s.Inv → s.params.vfOrder = .flagLast → s.NoResetNext → ∃ t, step s = .next t

/-- R25 to R28, R50, R150, R163: the only instructions that write `I`, `SP`, `DT`, `ST`, memory, the framebuffer and
`waiting`; none writes the inputs, the trace, `decode_fail` or the parameters. -/
def Obligations.OnlyTheNamedInstructionsWriteEachPart : Prop :=
  ∀ (i : Instr) (s t : State), exec i s = .next t →
    (t.i ≠ s.i → (∃ nnn, i = .ldI nnn) ∨ (∃ x, i = .addI x) ∨ (∃ x, i = .ldF x) ∨ (∃ x, i = .ldMemVx x) ∨
      ∃ x, i = .ldVxMem x) ∧
    (t.sp ≠ s.sp → i = .ret ∨ ∃ nnn, i = .call nnn) ∧
    (t.dt ≠ s.dt → ∃ x, i = .ldDtVx x) ∧
    (t.st ≠ s.st → ∃ x, i = .ldStVx x) ∧
    (t.mem ≠ s.mem → (∃ nnn, i = .call nnn) ∨ (∃ x, i = .ldB x) ∨ ∃ x, i = .ldMemVx x) ∧
    (t.fb ≠ s.fb → i = .cls ∨ ∃ x y n, i = .drw x y n) ∧
    (t.waiting ≠ s.waiting → ∃ x, i = .ldVxK x) ∧
    t.decodeFail = s.decodeFail ∧ t.trace = s.trace ∧ t.keys = s.keys ∧ t.rnd = s.rnd ∧
    t.script = s.script ∧ t.draws = s.draws ∧ t.params = s.params

/-- R28, R31 to R33, R150: only `RND` reads the random byte, only `SKP`, `SKNP` and `LD Vx, K` read the keypad, only `DRW`
reads the framebuffer, and nothing reads `ST`: with another value there, an instruction does the same and, unless it
writes that element, leaves the other value in place. -/
def Obligations.UnreadElementsDoNotMatter : Prop :=
  ∀ (i : Instr) (s : State),
    ((∀ x kk, i ≠ .rnd x kk) → ∀ b,
      exec i (s.setInputs s.keys b) = andThen (exec i s) fun t => .next (t.setInputs t.keys b)) ∧
    ((∀ x, i ≠ .skp x ∧ i ≠ .sknp x ∧ i ≠ .ldVxK x) → ∀ k,
      exec i (s.setInputs k s.rnd) = andThen (exec i s) fun t => .next (t.setInputs k t.rnd)) ∧
    (i ≠ .cls → (∀ x y n, i ≠ .drw x y n) → ∀ f,
      exec i (s.setFb f) = andThen (exec i s) fun t => .next (t.setFb f)) ∧
    (i = .cls → ∀ f, exec i (s.setFb f) = exec i s) ∧
    ((∀ x, i ≠ .ldStVx x) → ∀ b, exec i (s.setSt b) = andThen (exec i s) fun t => .next (t.setSt b)) ∧
    ∀ x, i = .ldStVx x → ∀ b, exec i (s.setSt b) = exec i s

/-- R24, R213: an even `PC` stays even as long as jump and call targets, computed targets and the popped return address
are even (that the hardware does not check it is decision D6, log 14). -/
def Obligations.EvenTargetsKeepPcEven : Prop :=
  ∀ (i : Instr) (s t : State), exec i s = .next t → s.pc.toNat % 2 = 0 →
    (match i with
      | .jp nnn => nnn.toNat % 2 = 0
      | .call nnn => nnn.toNat % 2 = 0
      | .jpV0 nnn => (nnn.toNat + regNat s 0) % 2 = 0
      | .ret => (s.mem.read (s.sp.toNat + 1)).toNat % 2 = 0
      | _ => True) →
    t.pc.toNat % 2 = 0

/-- R101, R204 (decision D29): a finished program, at its self-jump, stays finished; the event Step changes only the
reports. -/
def Obligations.SelfJumpStaysFinished : Prop :=
  ∀ s : State, s.finished = true →
    Completes (coreStep s) fun t => t.finished = true ∧ t.pc = s.pc ∧ Keeps s t Part.isReport
end

