-- ==== Sys2Proof/Laws/Decode.lean ====
section
/-! SUPPORT. The bits and fields of the words the encoder builds, and the bytes of a word. -/

namespace Sys2Proof

/-! ### Bits of built words -/

theorem getLsbD_wordA (f : Nibble) (nnn : Addr12) (k : Nat) :
    (wordA f nnn).getLsbD k = if k < 12 then nnn.getLsbD k else f.getLsbD (k - 12) :=
  BitVec.getLsbD_append

theorem getLsbD_wordXK (f : Nibble) (x : Reg) (kk : Byte) (k : Nat) :
    (wordXK f x kk).getLsbD k =
      if k < 8 then kk.getLsbD k
      else if k - 8 < 4 then (BitVec.ofFin x : BitVec 4).getLsbD (k - 8) else f.getLsbD (k - 8 - 4) :=
  BitVec.getLsbD_append.trans (if_congr Iff.rfl rfl BitVec.getLsbD_append)

theorem getLsbD_wordXYN (f : Nibble) (x y : Reg) (n : Nibble) (k : Nat) :
    (wordXYN f x y n).getLsbD k =
      if k < 4 then n.getLsbD k
      else if k - 4 < 4 then (BitVec.ofFin y : BitVec 4).getLsbD (k - 4)
      else if k - 4 - 4 < 4 then (BitVec.ofFin x : BitVec 4).getLsbD (k - 4 - 4) else f.getLsbD (k - 4 - 4 - 4) :=
  BitVec.getLsbD_append.trans (if_congr Iff.rfl rfl
    (BitVec.getLsbD_append.trans (if_congr Iff.rfl rfl BitVec.getLsbD_append)))

theorem getLsbD_wordOfBytes (b0 b1 : Byte) (k : Nat) :
    (wordOfBytes b0 b1).getLsbD k = if k < 8 then b1.getLsbD k else b0.getLsbD (k - 8) :=
  BitVec.getLsbD_append

/-! ### Fields of built words -/

@[simp] theorem fieldF_wordA (f : Nibble) (nnn : Addr12) : fieldF (wordA f nnn) = f := by
  apply BitVec.eq_of_getLsbD_eq
  intro k hk
  simp [fieldF, getLsbD_wordA, hk]

@[simp] theorem fieldNNN_wordA (f : Nibble) (nnn : Addr12) : fieldNNN (wordA f nnn) = nnn := by
  apply BitVec.eq_of_getLsbD_eq
  intro k hk
  simp [fieldNNN, getLsbD_wordA, hk]

@[simp] theorem fieldF_wordXK (f : Nibble) (x : Reg) (kk : Byte) : fieldF (wordXK f x kk) = f := by
  apply BitVec.eq_of_getLsbD_eq
  intro k hk
  have h1 : ¬ 12 + k < 8 := by omega
  have h2 : ¬ 12 + k - 8 < 4 := by omega
  have h3 : 12 + k - 8 - 4 = k := by omega
  simp [fieldF, getLsbD_wordXK, hk, h1, h2, h3]

@[simp] theorem fieldX_wordXK (f : Nibble) (x : Reg) (kk : Byte) : fieldX (wordXK f x kk) = x := by
  have h : (wordXK f x kk).extractLsb' 8 4 = (BitVec.ofFin x : BitVec 4) := by
    apply BitVec.eq_of_getLsbD_eq
    intro k hk
    have h1 : ¬ 8 + k < 8 := by omega
    have h3 : 8 + k - 8 = k := by omega
    simp only [BitVec.getLsbD_extractLsb', getLsbD_wordXK, hk, h1, h3, decide_true, Bool.true_and, if_true, if_false]
  unfold fieldX
  rw [h]

@[simp] theorem fieldKK_wordXK (f : Nibble) (x : Reg) (kk : Byte) : fieldKK (wordXK f x kk) = kk := by
  apply BitVec.eq_of_getLsbD_eq
  intro k hk
  simp [fieldKK, getLsbD_wordXK, hk]

@[simp] theorem fieldF_wordXYN (f : Nibble) (x y : Reg) (n : Nibble) : fieldF (wordXYN f x y n) = f := by
  apply BitVec.eq_of_getLsbD_eq
  intro k hk
  have h1 : ¬ 12 + k < 4 := by omega
  have h2 : ¬ 12 + k - 4 < 4 := by omega
  have h3 : ¬ 12 + k - 4 - 4 < 4 := by omega
  have h4 : 12 + k - 4 - 4 - 4 = k := by omega
  simp only [fieldF, BitVec.getLsbD_extractLsb', getLsbD_wordXYN, hk, h1, h2, h3, h4, decide_true, Bool.true_and, if_false]

@[simp] theorem fieldX_wordXYN (f : Nibble) (x y : Reg) (n : Nibble) : fieldX (wordXYN f x y n) = x := by
  have h : (wordXYN f x y n).extractLsb' 8 4 = (BitVec.ofFin x : BitVec 4) := by
    apply BitVec.eq_of_getLsbD_eq
    intro k hk
    have h1 : ¬ 8 + k < 4 := by omega
    have h2 : ¬ 8 + k - 4 < 4 := by omega
    have h3 : 8 + k - 4 - 4 = k := by omega
    simp only [BitVec.getLsbD_extractLsb', getLsbD_wordXYN, hk, h1, h2, h3, decide_true, Bool.true_and, if_true, if_false]
  unfold fieldX
  rw [h]

@[simp] theorem fieldY_wordXYN (f : Nibble) (x y : Reg) (n : Nibble) : fieldY (wordXYN f x y n) = y := by
  have h : (wordXYN f x y n).extractLsb' 4 4 = (BitVec.ofFin y : BitVec 4) := by
    apply BitVec.eq_of_getLsbD_eq
    intro k hk
    have h1 : ¬ 4 + k < 4 := by omega
    have h3 : 4 + k - 4 = k := by omega
    simp only [BitVec.getLsbD_extractLsb', getLsbD_wordXYN, hk, h1, h3, decide_true, Bool.true_and, if_true, if_false]
  unfold fieldY
  rw [h]

@[simp] theorem fieldN_wordXYN (f : Nibble) (x y : Reg) (n : Nibble) : fieldN (wordXYN f x y n) = n := by
  apply BitVec.eq_of_getLsbD_eq
  intro k hk
  simp [fieldN, getLsbD_wordXYN, hk]

/-! ### Every word is built of its fields -/

theorem wordA_fields (op : Word) : wordA (fieldF op) (fieldNNN op) = op := by
  apply BitVec.eq_of_getLsbD_eq
  intro k hk
  rw [getLsbD_wordA]
  unfold fieldF fieldNNN
  split
  · simp [*]
  · have h1 : k - 12 < 4 := by omega
    have h2 : 12 + (k - 12) = k := by omega
    simp [h1, h2]

theorem wordXK_fields (op : Word) : wordXK (fieldF op) (fieldX op) (fieldKK op) = op := by
  apply BitVec.eq_of_getLsbD_eq
  intro k hk
  rw [getLsbD_wordXK]
  unfold fieldF fieldX fieldKK
  split
  · simp [*]
  · split
    · have h1 : k - 8 < 4 := by omega
      have h2 : 8 + (k - 8) = k := by omega
      change (BitVec.extractLsb' 8 4 op).getLsbD (k - 8) = _
      simp [h1, h2]
    · have h1 : k - 8 - 4 < 4 := by omega
      have h2 : 12 + (k - 8 - 4) = k := by omega
      simp only [BitVec.getLsbD_extractLsb', h1, h2, decide_true, Bool.true_and]

theorem wordXYN_fields (op : Word) : wordXYN (fieldF op) (fieldX op) (fieldY op) (fieldN op) = op := by
  apply BitVec.eq_of_getLsbD_eq
  intro k hk
  rw [getLsbD_wordXYN]
  unfold fieldF fieldX fieldY fieldN
  split
  · simp [*]
  · split
    · have h1 : k - 4 < 4 := by omega
      have h2 : 4 + (k - 4) = k := by omega
      change (BitVec.extractLsb' 4 4 op).getLsbD (k - 4) = _
      simp [h1, h2]
    · split
      · have h1 : k - 4 - 4 < 4 := by omega
        have h2 : 8 + (k - 4 - 4) = k := by omega
        change (BitVec.extractLsb' 8 4 op).getLsbD (k - 4 - 4) = _
        simp only [BitVec.getLsbD_extractLsb', h1, h2, decide_true, Bool.true_and]
      · have h1 : k - 4 - 4 - 4 < 4 := by omega
        have h2 : 12 + (k - 4 - 4 - 4) = k := by omega
        simp only [BitVec.getLsbD_extractLsb', h1, h2, decide_true, Bool.true_and]

/-! ### Bytes of a word -/

@[simp] theorem wordOfBytes_bytes (w : Word) : wordOfBytes (hiByte w) (loByte w) = w := by
  apply BitVec.eq_of_getLsbD_eq
  intro k hk
  rw [getLsbD_wordOfBytes]
  unfold hiByte loByte
  split
  · simp [*]
  · have h1 : k - 8 < 8 := by omega
    have h2 : 8 + (k - 8) = k := by omega
    simp [h1, h2]

@[simp] theorem hiByte_wordOfBytes (b0 b1 : Byte) : hiByte (wordOfBytes b0 b1) = b0 := by
  apply BitVec.eq_of_getLsbD_eq
  intro k hk
  simp [hiByte, getLsbD_wordOfBytes, hk]

@[simp] theorem loByte_wordOfBytes (b0 b1 : Byte) : loByte (wordOfBytes b0 b1) = b1 := by
  apply BitVec.eq_of_getLsbD_eq
  intro k hk
  simp [loByte, getLsbD_wordOfBytes, hk]

@[simp] theorem length_bytesOfWord (w : Word) : (bytesOfWord w).length = 2 := rfl

theorem toNat_wordOfBytes (b0 b1 : Byte) : (wordOfBytes b0 b1).toNat = 256 * b0.toNat + b1.toNat := by
  have h : (wordOfBytes b0 b1).toNat = b0.toNat <<< 8 ||| b1.toNat := BitVec.toNat_append b0 b1
  rw [h, ← Nat.shiftLeft_add_eq_or_of_lt b1.isLt, Nat.shiftLeft_eq]
  ring

end Sys2Proof
end

