-- ==== Sys2Proof/Laws/Display.lean ====
section
/-! SUPPORT. What a pixel is after each framebuffer operation. -/

namespace Sys2Proof.Machine

/-- Two framebuffers with the same pixels are the same. -/
theorem Frame.ext {f g : Frame} (h : ∀ y x, f.pixel y x = g.pixel y x) : f = g := by
  apply Vector.ext
  intro y hy
  apply Vector.ext
  intro x hx
  exact h ⟨y, hy⟩ ⟨x, hx⟩

@[simp] theorem Frame.pixel_clear (y : Fin 32) (x : Fin 64) : Frame.clear.pixel y x = false := by
  simp [Frame.clear, Frame.pixel]

theorem Frame.pixel_setPixel (f : Frame) (y y' : Fin 32) (x x' : Fin 64) (b : Bool) :
    (f.setPixel y x b).pixel y' x' = if y' = y ∧ x' = x then b else f.pixel y' x' := by
  unfold Frame.setPixel Frame.pixel
  rcases eq_or_ne y' y with rfl | hy
  · rcases eq_or_ne x' x with rfl | hx
    · simp
    · have hne : x.val ≠ x'.val := fun e => hx (Fin.ext e.symm)
      simp [hx, hne]
  · have hne : y.val ≠ y'.val := fun e => hy (Fin.ext e.symm)
    simp [hy, hne]

/-- One merge (R153): the pixel is exclusive-ored with the sprite bit, every other pixel stays. -/
theorem Drawing.pixel_merge (d : Drawing) (y y' : Fin 32) (x x' : Fin 64) (bit : Bool) :
    (d.merge y x bit).fb.pixel y' x' =
      if y' = y ∧ x' = x then (d.fb.pixel y x ^^ bit) else d.fb.pixel y' x' := by
  unfold Drawing.merge
  cases bit
  · by_cases h : y' = y ∧ x' = x
    · obtain ⟨rfl, rfl⟩ := h
      simp
    · simp [h]
  · simp [Frame.pixel_setPixel]

/-- One merge (R153): a collision is a lit pixel under a set sprite bit. -/
theorem Drawing.collision_merge (d : Drawing) (y : Fin 32) (x : Fin 64) (bit : Bool) :
    (d.merge y x bit).collision = (d.collision || (d.fb.pixel y x && bit)) := by
  unfold Drawing.merge
  cases bit <;> simp

/-! ### A row of a sprite -/

/-- How many columns `x` lies right of `x0`, modulo 64. -/
def colOffset (x0 : Nat) (x : Fin 64) : Nat := (x.val + 64 - x0 % 64) % 64

/-- How many lines `y` lies below `y0`, modulo 32. -/
def lineOffset (y0 : Nat) (y : Fin 32) : Nat := (y.val + 32 - y0 % 32) % 32

theorem eq_col_iff {x0 c : Nat} (hc : c < 64) (x : Fin 64) : x = Fin.ofNat 64 (x0 + c) ↔ colOffset x0 x = c := by
  have hx := x.isLt
  rw [Fin.ext_iff, Fin.val_ofNat, colOffset]
  omega

theorem eq_line_iff {y0 r : Nat} (hr : r < 32) (y : Fin 32) : y = Fin.ofNat 32 (y0 + r) ↔ lineOffset y0 y = r := by
  have hy := y.isLt
  rw [Fin.ext_iff, Fin.val_ofNat, lineOffset]
  omega

theorem Drawing.foldl_merge (x0 : Nat) (y : Fin 32) (bits : Byte) (cs : List Nat) (hcs : ∀ c ∈ cs, c < 64)
    (hnd : cs.Nodup) (d : Drawing) :
    (∀ y' x', (cs.foldl (fun d c => d.merge y (Fin.ofNat 64 (x0 + c)) (bits.getLsbD (7 - c))) d).fb.pixel y' x' =
      (d.fb.pixel y' x' ^^ (decide (y' = y) && decide (colOffset x0 x' ∈ cs) && bits.getLsbD (7 - colOffset x0 x')))) ∧
    ((cs.foldl (fun d c => d.merge y (Fin.ofNat 64 (x0 + c)) (bits.getLsbD (7 - c))) d).collision = true ↔
      d.collision = true ∨ ∃ x', d.fb.pixel y x' = true ∧ colOffset x0 x' ∈ cs ∧
        bits.getLsbD (7 - colOffset x0 x') = true) := by
  induction cs generalizing d with
  | nil => simp
  | cons c cs ih =>
    obtain ⟨hnot, hnd'⟩ := List.nodup_cons.mp hnd
    have hc : c < 64 := hcs c (List.mem_cons_self ..)
    obtain ⟨ihp, ihc⟩ := ih (fun k hk => hcs k (List.mem_cons_of_mem _ hk)) hnd'
      (d.merge y (Fin.ofNat 64 (x0 + c)) (bits.getLsbD (7 - c)))
    have hcol := fun x' => eq_col_iff (x0 := x0) hc x'
    simp only [List.foldl_cons]
    generalize Fin.ofNat 64 (x0 + c) = q at ihp ihc hcol ⊢
    refine ⟨fun y' x' => ?_, ?_⟩
    · rw [ihp, Drawing.pixel_merge]
      rcases eq_or_ne y' y with rfl | hy
      · by_cases hx : x' = q
        · subst hx
          simp [(hcol x').mp rfl, hnot]
        · simp [hx, mt (hcol x').mpr hx]
      · simp [hy]
    · rw [ihc, Drawing.collision_merge]
      constructor
      · rintro (h | ⟨x', hp, hm, hb⟩)
        · rcases Bool.or_eq_true_iff.mp h with h | h
          · exact .inl h
          · obtain ⟨h1, h2⟩ := Bool.and_eq_true_iff.mp h
            exact .inr ⟨q, h1, by simp [(hcol q).mp rfl], by simpa [(hcol q).mp rfl] using h2⟩
        · have hx : ¬ x' = q := fun h => hnot ((hcol x').mp h ▸ hm)
          rw [Drawing.pixel_merge] at hp
          exact .inr ⟨x', by simpa [hx] using hp, List.mem_cons_of_mem _ hm, hb⟩
      · rintro (h | ⟨x', hp, hm, hb⟩)
        · exact .inl (by simp [h])
        · rcases List.mem_cons.mp hm with hm | hm
          · rw [hm] at hb
            rw [(hcol x').mpr hm] at hp
            exact .inl (by simp [hp, hb])
          · have hx : ¬ x' = q := fun h => hnot ((hcol x').mp h ▸ hm)
            exact .inr ⟨x', by rw [Drawing.pixel_merge]; simpa [hx] using hp, hm, hb⟩

/-- The bit that a row puts over column `x` when its first bit lands on column `x0` (R152). -/
def rowBit (x0 : Nat) (bits : Byte) (x : Fin 64) : Bool :=
  decide (colOffset x0 x < 8) && bits.getLsbD (7 - colOffset x0 x)

theorem mem_columns {c : Nat} : c ∈ [0, 1, 2, 3, 4, 5, 6, 7] ↔ c < 8 := by
  simp only [List.mem_cons, List.not_mem_nil, or_false]
  omega

/-- What one row does to every pixel. -/
theorem Drawing.pixel_row (d : Drawing) (x0 : Nat) (y : Fin 32) (bits : Byte) (y' : Fin 32) (x' : Fin 64) :
    (d.row x0 y bits).fb.pixel y' x' = (d.fb.pixel y' x' ^^ (decide (y' = y) && rowBit x0 bits x')) := by
  rw [Drawing.row, (Drawing.foldl_merge x0 y bits _ (by decide) (by decide) d).1, rowBit, Bool.and_assoc,
    decide_eq_decide.mpr mem_columns]

/-- When one row collides. -/
theorem Drawing.collision_row (d : Drawing) (x0 : Nat) (y : Fin 32) (bits : Byte) :
    (d.row x0 y bits).collision = true ↔
      d.collision = true ∨ ∃ x', d.fb.pixel y x' = true ∧ rowBit x0 bits x' = true := by
  rw [Drawing.row, (Drawing.foldl_merge x0 y bits _ (by decide) (by decide) d).2]
  simp only [rowBit, mem_columns, Bool.and_eq_true, decide_eq_true_eq]

/-! ### A sprite -/

/-- The bit that the sprite rows from number `r` on put over a pixel. -/
def rowsBit (x0 y0 r : Nat) (rows : List Byte) (y : Fin 32) (x : Fin 64) : Bool :=
  decide (r ≤ lineOffset y0 y) && decide (lineOffset y0 y < r + rows.length) &&
    rowBit x0 (rows.getD (lineOffset y0 y - r) 0) x

theorem rowsBit_cons (x0 y0 r : Nat) (b : Byte) (rows : List Byte) (y : Fin 32) (x : Fin 64) :
    rowsBit x0 y0 r (b :: rows) y x =
      if lineOffset y0 y = r then rowBit x0 b x else rowsBit x0 y0 (r + 1) rows y x := by
  unfold rowsBit
  by_cases h : lineOffset y0 y = r
  · simp [h]
  · by_cases h2 : r + 1 ≤ lineOffset y0 y
    · have h3 : lineOffset y0 y - r = lineOffset y0 y - (r + 1) + 1 := by omega
      have h4 : r ≤ lineOffset y0 y := by omega
      have h5 : r + (rows.length + 1) = r + 1 + rows.length := by omega
      simp [h, h2, h3, h4, h5]
    · have h4 : ¬ r ≤ lineOffset y0 y := by omega
      simp [h, h2, h4]

theorem rowsBit_line (x0 y0 r : Nat) (rows : List Byte) (y : Fin 32) (x : Fin 64) (h : lineOffset y0 y = r) :
    rowsBit x0 y0 (r + 1) rows y x = false := by
  simp [rowsBit, h]

/-- What the rows of a sprite, each on its own line, do to every pixel, and when they collide. -/
theorem Drawing.rows_spec (x0 y0 r : Nat) (rows : List Byte) (h : r + rows.length ≤ 32) (d : Drawing) :
    (∀ y x, (Drawing.rows x0 y0 r rows d).fb.pixel y x = (d.fb.pixel y x ^^ rowsBit x0 y0 r rows y x)) ∧
    ((Drawing.rows x0 y0 r rows d).collision = true ↔
      d.collision = true ∨ ∃ y x, d.fb.pixel y x = true ∧ rowsBit x0 y0 r rows y x = true) := by
  induction rows generalizing r d with
  | nil =>
    have hno : ∀ l, ¬ (r ≤ l ∧ l < r) := fun l => by omega
    simp [Drawing.rows, rowsBit, ← Bool.decide_and, hno]
  | cons b rows ih =>
    rw [List.length_cons] at h
    have hr : r < 32 := by omega
    obtain ⟨ihp, ihc⟩ := ih (r + 1) (by omega) (d.row x0 (Fin.ofNat 32 (y0 + r)) b)
    have hline := fun y => eq_line_iff (y0 := y0) hr y
    simp only [Drawing.rows]
    generalize Fin.ofNat 32 (y0 + r) = q at ihp ihc hline ⊢
    have hq := (hline q).mp rfl
    refine ⟨fun y x => ?_, ?_⟩
    · rw [ihp, Drawing.pixel_row, rowsBit_cons]
      by_cases hy : y = q
      · subst hy
        simp [hq, rowsBit_line x0 y0 r rows y x hq]
      · simp [hy, mt (hline y).mpr hy]
    · rw [ihc, Drawing.collision_row]
      constructor
      · rintro ((h1 | ⟨x, hp, hb⟩) | ⟨y, x, hp, hb⟩)
        · exact .inl h1
        · exact .inr ⟨q, x, hp, by rw [rowsBit_cons, if_pos hq]; exact hb⟩
        · have hl : ¬ lineOffset y0 y = r := fun e => by simp [rowsBit_line x0 y0 r rows y x e] at hb
          have hy : ¬ y = q := fun e => hl ((hline y).mp e)
          rw [Drawing.pixel_row] at hp
          exact .inr ⟨y, x, by simpa [hy] using hp, by rw [rowsBit_cons, if_neg hl]; exact hb⟩
      · rintro (h1 | ⟨y, x, hp, hb⟩)
        · exact .inl (.inl h1)
        · rw [rowsBit_cons] at hb
          by_cases hy : y = q
          · subst hy
            rw [if_pos hq] at hb
            exact .inl (.inr ⟨x, hp, hb⟩)
          · rw [if_neg fun h => hy ((hline y).mpr h)] at hb
            exact .inr ⟨y, x, by rw [Drawing.pixel_row]; simpa [hy] using hp, hb⟩

end Sys2Proof.Machine
end

