-- ==== Sys2Proof/Laws/Memory.lean ====
section
/-! SUPPORT. Read after write, the canonical form, and when two memories are equal. -/

namespace Sys2Proof.Machine

/-! ### The canonical form -/

theorem Memory.wfFrom_cons {size lo k : Nat} {b : Byte} {rest : Memory} :
    Memory.wfFrom size lo ((k, b) :: rest) = true ↔
      lo ≤ k ∧ k < size ∧ b ≠ Memory.unlisted k ∧ Memory.wfFrom size (k + 1) rest = true := by
  simp [Memory.wfFrom, and_assoc]

theorem Memory.wfFrom_mono {size lo lo' : Nat} {m : Memory} (h : lo' ≤ lo) (hm : m.wfFrom size lo = true) :
    m.wfFrom size lo' = true := by
  cases m with
  | nil => rfl
  | cons e rest =>
    obtain ⟨h1, h2⟩ := Memory.wfFrom_cons.mp hm
    exact Memory.wfFrom_cons.mpr ⟨by omega, h2⟩

/-- Below its first address a canonical memory lists nothing. -/
theorem Memory.read_below {size lo a : Nat} {m : Memory} (hm : m.wfFrom size lo = true) (h : a < lo) :
    m.read a = Memory.unlisted a := by
  induction m generalizing lo with
  | nil => rfl
  | cons e rest ih =>
    obtain ⟨h1, -, -, h4⟩ := Memory.wfFrom_cons.mp hm
    have hne : e.1 ≠ a := by omega
    simpa [Memory.read, hne] using ih h4 (by omega)

/-! ### One byte -/

/-- A write leaves every other byte alone. -/
theorem Memory.read_write_ne (m : Memory) {a c : Nat} (b : Byte) (h : c ≠ a) :
    (m.write a b).read c = m.read c := by
  induction m with
  | nil =>
    unfold Memory.write
    split <;> simp [Memory.read, Ne.symm h]
  | cons e rest ih =>
    unfold Memory.write
    split
    · split <;> simp [Memory.read, Ne.symm h]
    · split
      · rename_i hk
        subst hk
        split <;> simp [Memory.read, Ne.symm h]
      · simp [Memory.read, ih]

theorem Memory.read_write_self_from {size lo : Nat} {m : Memory} {a : Nat} (b : Byte) (hm : m.wfFrom size lo = true) :
    (m.write a b).read a = b := by
  induction m generalizing lo with
  | nil =>
    unfold Memory.write
    split
    · rename_i hb
      simp [Memory.read, hb]
    · simp [Memory.read]
  | cons e rest ih =>
    obtain ⟨h1, h2, h3, h4⟩ := Memory.wfFrom_cons.mp hm
    unfold Memory.write
    split
    · rename_i hk
      split
      · rename_i hb
        rw [hb]
        exact Memory.read_below (Memory.wfFrom_cons.mpr ⟨le_refl _, h2, h3, h4⟩) hk
      · simp [Memory.read]
    · split
      · rename_i hk
        subst hk
        split
        · rename_i hb
          rw [hb]
          exact Memory.read_below h4 (by omega)
        · simp [Memory.read]
      · rename_i hk
        simpa [Memory.read, Ne.symm hk] using ih h4

/-- A read after a write to the same byte gives the value written. -/
theorem Memory.read_write_self {size : Nat} {m : Memory} (hm : m.wf size = true) (a : Nat) (b : Byte) :
    (m.write a b).read a = b := Memory.read_write_self_from b hm

theorem Memory.wfFrom_write {size lo : Nat} {m : Memory} {a : Nat} (b : Byte) (hm : m.wfFrom size lo = true)
    (hlo : lo ≤ a) (ha : a < size) : (m.write a b).wfFrom size lo = true := by
  induction m generalizing lo with
  | nil =>
    unfold Memory.write
    split
    · rfl
    · rename_i hb
      exact Memory.wfFrom_cons.mpr ⟨hlo, ha, hb, rfl⟩
  | cons e rest ih =>
    obtain ⟨h1, h2, h3, h4⟩ := Memory.wfFrom_cons.mp hm
    unfold Memory.write
    split
    · rename_i hk
      split
      · exact hm
      · rename_i hb
        exact Memory.wfFrom_cons.mpr ⟨hlo, ha, hb, Memory.wfFrom_cons.mpr ⟨hk, h2, h3, h4⟩⟩
    · split
      · rename_i hk
        subst hk
        split
        · exact Memory.wfFrom_mono (by omega) h4
        · rename_i hb
          exact Memory.wfFrom_cons.mpr ⟨hlo, ha, hb, h4⟩
      · exact Memory.wfFrom_cons.mpr ⟨h1, h2, h3, ih h4 (by omega)⟩

/-- A write inside `MEM` keeps the canonical form. -/
theorem Memory.wf_write {size : Nat} {m : Memory} (hm : m.wf size = true) {a : Nat} (ha : a < size) (b : Byte) :
    (m.write a b).wf size = true := Memory.wfFrom_write b hm (Nat.zero_le a) ha

@[simp] theorem Memory.wf_nil (size : Nat) : Memory.wf size [] = true := rfl

@[simp] theorem Memory.read_nil (a : Nat) : Memory.read [] a = Memory.unlisted a := rfl

theorem Memory.ext_from {size lo : Nat} {m m' : Memory} (hm : m.wfFrom size lo = true) (hm' : m'.wfFrom size lo = true)
    (h : ∀ a, m.read a = m'.read a) : m = m' := by
  induction m generalizing lo m' with
  | nil =>
    cases m' with
    | nil => rfl
    | cons e rest =>
      obtain ⟨-, -, h3, -⟩ := Memory.wfFrom_cons.mp hm'
      have := h e.1
      simp [Memory.read] at this
      exact absurd this.symm h3
  | cons e rest ih =>
    obtain ⟨h1, h2, h3, h4⟩ := Memory.wfFrom_cons.mp hm
    cases m' with
    | nil =>
      have := h e.1
      simp [Memory.read] at this
      exact absurd this h3
    | cons e' rest' =>
      obtain ⟨h1', h2', h3', h4'⟩ := Memory.wfFrom_cons.mp hm'
      have hk : e.1 = e'.1 := by
        rcases Nat.lt_trichotomy e.1 e'.1 with hlt | heq | hgt
        · have := h e.1
          rw [Memory.read_below (Memory.wfFrom_cons.mpr ⟨le_refl e'.1, h2', h3', h4'⟩) hlt] at this
          simp [Memory.read] at this
          exact absurd this h3
        · exact heq
        · have := h e'.1
          rw [Memory.read_below (Memory.wfFrom_cons.mpr ⟨le_refl e.1, h2, h3, h4⟩) hgt] at this
          simp [Memory.read] at this
          exact absurd this.symm h3'
      have hb : e.2 = e'.2 := by
        have := h e.1
        simpa [Memory.read, hk] using this
      have hrest : rest = rest' := by
        refine ih h4 (hk ▸ h4') fun a => ?_
        by_cases ha : e.1 = a
        · subst ha
          rw [Memory.read_below h4 (by omega), Memory.read_below h4' (by omega)]
        · have := h a
          simpa [Memory.read, ha, hk ▸ ha] using this
      rw [hrest, Prod.ext hk hb]

/-- Canonical memories that read the same are the same list. -/
theorem Memory.ext {size : Nat} {m m' : Memory} (hm : m.wf size = true) (hm' : m'.wf size = true)
    (h : ∀ a, m.read a = m'.read a) : m = m' := Memory.ext_from hm hm' h

/-- Outside `MEM` a canonical memory lists nothing. -/
theorem Memory.read_outside_from {size lo : Nat} {m : Memory} (hm : m.wfFrom size lo = true) {a : Nat}
    (ha : size ≤ a) : m.read a = Memory.unlisted a := by
  induction m generalizing lo with
  | nil => rfl
  | cons e rest ih =>
    obtain ⟨-, h2, -, h4⟩ := Memory.wfFrom_cons.mp hm
    have hne : e.1 ≠ a := by omega
    simpa [Memory.read, hne] using ih h4

/-! ### Several bytes -/

@[simp] theorem Memory.length_readBytes (m : Memory) (a n : Nat) : (m.readBytes a n).length = n := by
  induction n generalizing a with
  | zero => rfl
  | succ n ih => simp [Memory.readBytes, ih]

theorem Memory.getElem_readBytes (m : Memory) (a n k : Nat) (hk : k < (m.readBytes a n).length) :
    (m.readBytes a n)[k] = m.read (a + k) := by
  induction n generalizing a k with
  | zero => simp at hk
  | succ n ih =>
    cases k with
    | zero => rfl
    | succ k =>
      have := ih (a + 1) k (by simpa using hk)
      simpa [Memory.readBytes, Nat.add_assoc, Nat.add_comm 1 k] using this

/-- A store leaves every byte outside it alone. -/
theorem Memory.read_writeBytes_out (m : Memory) (a : Nat) (bs : List Byte) {c : Nat}
    (h : c < a ∨ a + bs.length ≤ c) : (m.writeBytes a bs).read c = m.read c := by
  induction bs generalizing m a with
  | nil => rfl
  | cons b bs ih =>
    have hlen : (b :: bs).length = bs.length + 1 := rfl
    rw [Memory.writeBytes, ih _ _ (by omega), Memory.read_write_ne _ _ (by omega)]

/-- A store inside `MEM` keeps the canonical form. -/
theorem Memory.wf_writeBytes {size : Nat} {m : Memory} (hm : m.wf size = true) (a : Nat) (bs : List Byte)
    (h : a + bs.length ≤ size) : (m.writeBytes a bs).wf size = true := by
  induction bs generalizing m a with
  | nil => exact hm
  | cons b bs ih =>
    have hlen : (b :: bs).length = bs.length + 1 := rfl
    exact ih (Memory.wf_write hm (by omega) b) (a + 1) (by omega)

/-- A stored byte reads back. -/
theorem Memory.read_writeBytes_in {size : Nat} {m : Memory} (hm : m.wf size = true) (a : Nat) (bs : List Byte)
    (h : a + bs.length ≤ size) (k : Nat) (hk : k < bs.length) :
    (m.writeBytes a bs).read (a + k) = bs[k] := by
  induction bs generalizing m a k with
  | nil => simp at hk
  | cons b bs ih =>
    have hlen : (b :: bs).length = bs.length + 1 := rfl
    have hw := Memory.wf_write hm (a := a) (by omega) b
    cases k with
    | zero =>
      change ((m.write a b).writeBytes (a + 1) bs).read a = b
      rw [Memory.read_writeBytes_out _ _ _ (by omega), Memory.read_write_self hm]
    | succ k =>
      have := ih hw (a + 1) (by omega) k (by omega)
      rw [Memory.writeBytes]
      simpa [Nat.add_assoc, Nat.add_comm 1 k] using this

/-! ### The address decoder -/

theorem firstOutOfRange_eq_none {size addr n : Nat} :
    firstOutOfRange size addr n = none ↔ addr + n ≤ size := by
  unfold firstOutOfRange
  split <;> simp_all

theorem firstOutOfRange_eq_some {size addr n a : Nat} :
    firstOutOfRange size addr n = some a ↔ size < addr + n ∧ a = max addr size := by
  unfold firstOutOfRange
  split
  · rename_i h
    simp only [reduceCtorEq, false_iff, not_and]
    omega
  · rename_i h
    simp only [Option.some.injEq]
    constructor
    · rintro rfl
      exact ⟨by omega, rfl⟩
    · rintro ⟨-, rfl⟩
      rfl

end Sys2Proof.Machine
end

