-- ==== Sys2Proof/Laws/State.lean ====
section
/-! SUPPORT. One lemma per field per update of the state, so that no proof unfolds a record update; what a register
holds after a register write. -/

namespace Sys2Proof.Machine

/-! `State.setReg` -/

@[simp] theorem State.setReg_v (s : State) (x : Reg) (b : Byte) : (s.setReg x b).v = s.v.set x.val b x.isLt := rfl
@[simp] theorem State.setReg_i (s : State) (x : Reg) (b : Byte) : (s.setReg x b).i = s.i := rfl
@[simp] theorem State.setReg_pc (s : State) (x : Reg) (b : Byte) : (s.setReg x b).pc = s.pc := rfl
@[simp] theorem State.setReg_sp (s : State) (x : Reg) (b : Byte) : (s.setReg x b).sp = s.sp := rfl
@[simp] theorem State.setReg_dt (s : State) (x : Reg) (b : Byte) : (s.setReg x b).dt = s.dt := rfl
@[simp] theorem State.setReg_st (s : State) (x : Reg) (b : Byte) : (s.setReg x b).st = s.st := rfl
@[simp] theorem State.setReg_fault (s : State) (x : Reg) (b : Byte) : (s.setReg x b).fault = s.fault := rfl
@[simp] theorem State.setReg_faultCause (s : State) (x : Reg) (b : Byte) : (s.setReg x b).faultCause = s.faultCause := rfl
@[simp] theorem State.setReg_faultAddr (s : State) (x : Reg) (b : Byte) : (s.setReg x b).faultAddr = s.faultAddr := rfl
@[simp] theorem State.setReg_faultPc (s : State) (x : Reg) (b : Byte) : (s.setReg x b).faultPc = s.faultPc := rfl
@[simp] theorem State.setReg_mem (s : State) (x : Reg) (b : Byte) : (s.setReg x b).mem = s.mem := rfl
@[simp] theorem State.setReg_fb (s : State) (x : Reg) (b : Byte) : (s.setReg x b).fb = s.fb := rfl
@[simp] theorem State.setReg_waiting (s : State) (x : Reg) (b : Byte) : (s.setReg x b).waiting = s.waiting := rfl
@[simp] theorem State.setReg_decodeFail (s : State) (x : Reg) (b : Byte) : (s.setReg x b).decodeFail = s.decodeFail := rfl
@[simp] theorem State.setReg_trace (s : State) (x : Reg) (b : Byte) : (s.setReg x b).trace = s.trace := rfl
@[simp] theorem State.setReg_keys (s : State) (x : Reg) (b : Byte) : (s.setReg x b).keys = s.keys := rfl
@[simp] theorem State.setReg_rnd (s : State) (x : Reg) (b : Byte) : (s.setReg x b).rnd = s.rnd := rfl
@[simp] theorem State.setReg_script (s : State) (x : Reg) (b : Byte) : (s.setReg x b).script = s.script := rfl
@[simp] theorem State.setReg_draws (s : State) (x : Reg) (b : Byte) : (s.setReg x b).draws = s.draws := rfl
@[simp] theorem State.setReg_params (s : State) (x : Reg) (b : Byte) : (s.setReg x b).params = s.params := rfl

/-! `State.setI` -/

@[simp] theorem State.setI_v (s : State) (w : Word) : (s.setI w).v = s.v := rfl
@[simp] theorem State.setI_i (s : State) (w : Word) : (s.setI w).i = w := rfl
@[simp] theorem State.setI_pc (s : State) (w : Word) : (s.setI w).pc = s.pc := rfl
@[simp] theorem State.setI_sp (s : State) (w : Word) : (s.setI w).sp = s.sp := rfl
@[simp] theorem State.setI_dt (s : State) (w : Word) : (s.setI w).dt = s.dt := rfl
@[simp] theorem State.setI_st (s : State) (w : Word) : (s.setI w).st = s.st := rfl
@[simp] theorem State.setI_fault (s : State) (w : Word) : (s.setI w).fault = s.fault := rfl
@[simp] theorem State.setI_faultCause (s : State) (w : Word) : (s.setI w).faultCause = s.faultCause := rfl
@[simp] theorem State.setI_faultAddr (s : State) (w : Word) : (s.setI w).faultAddr = s.faultAddr := rfl
@[simp] theorem State.setI_faultPc (s : State) (w : Word) : (s.setI w).faultPc = s.faultPc := rfl
@[simp] theorem State.setI_mem (s : State) (w : Word) : (s.setI w).mem = s.mem := rfl
@[simp] theorem State.setI_fb (s : State) (w : Word) : (s.setI w).fb = s.fb := rfl
@[simp] theorem State.setI_waiting (s : State) (w : Word) : (s.setI w).waiting = s.waiting := rfl
@[simp] theorem State.setI_decodeFail (s : State) (w : Word) : (s.setI w).decodeFail = s.decodeFail := rfl
@[simp] theorem State.setI_trace (s : State) (w : Word) : (s.setI w).trace = s.trace := rfl
@[simp] theorem State.setI_keys (s : State) (w : Word) : (s.setI w).keys = s.keys := rfl
@[simp] theorem State.setI_rnd (s : State) (w : Word) : (s.setI w).rnd = s.rnd := rfl
@[simp] theorem State.setI_script (s : State) (w : Word) : (s.setI w).script = s.script := rfl
@[simp] theorem State.setI_draws (s : State) (w : Word) : (s.setI w).draws = s.draws := rfl
@[simp] theorem State.setI_params (s : State) (w : Word) : (s.setI w).params = s.params := rfl
@[simp] theorem State.setI_reg (s : State) (w : Word) (y : Reg) : (s.setI w).reg y = s.reg y := rfl

/-! `State.setPc` -/

@[simp] theorem State.setPc_v (s : State) (w : Word) : (s.setPc w).v = s.v := rfl
@[simp] theorem State.setPc_i (s : State) (w : Word) : (s.setPc w).i = s.i := rfl
@[simp] theorem State.setPc_pc (s : State) (w : Word) : (s.setPc w).pc = w := rfl
@[simp] theorem State.setPc_sp (s : State) (w : Word) : (s.setPc w).sp = s.sp := rfl
@[simp] theorem State.setPc_dt (s : State) (w : Word) : (s.setPc w).dt = s.dt := rfl
@[simp] theorem State.setPc_st (s : State) (w : Word) : (s.setPc w).st = s.st := rfl
@[simp] theorem State.setPc_fault (s : State) (w : Word) : (s.setPc w).fault = s.fault := rfl
@[simp] theorem State.setPc_faultCause (s : State) (w : Word) : (s.setPc w).faultCause = s.faultCause := rfl
@[simp] theorem State.setPc_faultAddr (s : State) (w : Word) : (s.setPc w).faultAddr = s.faultAddr := rfl
@[simp] theorem State.setPc_faultPc (s : State) (w : Word) : (s.setPc w).faultPc = s.faultPc := rfl
@[simp] theorem State.setPc_mem (s : State) (w : Word) : (s.setPc w).mem = s.mem := rfl
@[simp] theorem State.setPc_fb (s : State) (w : Word) : (s.setPc w).fb = s.fb := rfl
@[simp] theorem State.setPc_waiting (s : State) (w : Word) : (s.setPc w).waiting = s.waiting := rfl
@[simp] theorem State.setPc_decodeFail (s : State) (w : Word) : (s.setPc w).decodeFail = s.decodeFail := rfl
@[simp] theorem State.setPc_trace (s : State) (w : Word) : (s.setPc w).trace = s.trace := rfl
@[simp] theorem State.setPc_keys (s : State) (w : Word) : (s.setPc w).keys = s.keys := rfl
@[simp] theorem State.setPc_rnd (s : State) (w : Word) : (s.setPc w).rnd = s.rnd := rfl
@[simp] theorem State.setPc_script (s : State) (w : Word) : (s.setPc w).script = s.script := rfl
@[simp] theorem State.setPc_draws (s : State) (w : Word) : (s.setPc w).draws = s.draws := rfl
@[simp] theorem State.setPc_params (s : State) (w : Word) : (s.setPc w).params = s.params := rfl
@[simp] theorem State.setPc_reg (s : State) (w : Word) (y : Reg) : (s.setPc w).reg y = s.reg y := rfl

/-! `State.setSp` -/

@[simp] theorem State.setSp_v (s : State) (w : Word) : (s.setSp w).v = s.v := rfl
@[simp] theorem State.setSp_i (s : State) (w : Word) : (s.setSp w).i = s.i := rfl
@[simp] theorem State.setSp_pc (s : State) (w : Word) : (s.setSp w).pc = s.pc := rfl
@[simp] theorem State.setSp_sp (s : State) (w : Word) : (s.setSp w).sp = w := rfl
@[simp] theorem State.setSp_dt (s : State) (w : Word) : (s.setSp w).dt = s.dt := rfl
@[simp] theorem State.setSp_st (s : State) (w : Word) : (s.setSp w).st = s.st := rfl
@[simp] theorem State.setSp_fault (s : State) (w : Word) : (s.setSp w).fault = s.fault := rfl
@[simp] theorem State.setSp_faultCause (s : State) (w : Word) : (s.setSp w).faultCause = s.faultCause := rfl
@[simp] theorem State.setSp_faultAddr (s : State) (w : Word) : (s.setSp w).faultAddr = s.faultAddr := rfl
@[simp] theorem State.setSp_faultPc (s : State) (w : Word) : (s.setSp w).faultPc = s.faultPc := rfl
@[simp] theorem State.setSp_mem (s : State) (w : Word) : (s.setSp w).mem = s.mem := rfl
@[simp] theorem State.setSp_fb (s : State) (w : Word) : (s.setSp w).fb = s.fb := rfl
@[simp] theorem State.setSp_waiting (s : State) (w : Word) : (s.setSp w).waiting = s.waiting := rfl
@[simp] theorem State.setSp_decodeFail (s : State) (w : Word) : (s.setSp w).decodeFail = s.decodeFail := rfl
@[simp] theorem State.setSp_trace (s : State) (w : Word) : (s.setSp w).trace = s.trace := rfl
@[simp] theorem State.setSp_keys (s : State) (w : Word) : (s.setSp w).keys = s.keys := rfl
@[simp] theorem State.setSp_rnd (s : State) (w : Word) : (s.setSp w).rnd = s.rnd := rfl
@[simp] theorem State.setSp_script (s : State) (w : Word) : (s.setSp w).script = s.script := rfl
@[simp] theorem State.setSp_draws (s : State) (w : Word) : (s.setSp w).draws = s.draws := rfl
@[simp] theorem State.setSp_params (s : State) (w : Word) : (s.setSp w).params = s.params := rfl
@[simp] theorem State.setSp_reg (s : State) (w : Word) (y : Reg) : (s.setSp w).reg y = s.reg y := rfl

/-! `State.setDt` -/

@[simp] theorem State.setDt_v (s : State) (b : Byte) : (s.setDt b).v = s.v := rfl
@[simp] theorem State.setDt_i (s : State) (b : Byte) : (s.setDt b).i = s.i := rfl
@[simp] theorem State.setDt_pc (s : State) (b : Byte) : (s.setDt b).pc = s.pc := rfl
@[simp] theorem State.setDt_sp (s : State) (b : Byte) : (s.setDt b).sp = s.sp := rfl
@[simp] theorem State.setDt_dt (s : State) (b : Byte) : (s.setDt b).dt = b := rfl
@[simp] theorem State.setDt_st (s : State) (b : Byte) : (s.setDt b).st = s.st := rfl
@[simp] theorem State.setDt_fault (s : State) (b : Byte) : (s.setDt b).fault = s.fault := rfl
@[simp] theorem State.setDt_faultCause (s : State) (b : Byte) : (s.setDt b).faultCause = s.faultCause := rfl
@[simp] theorem State.setDt_faultAddr (s : State) (b : Byte) : (s.setDt b).faultAddr = s.faultAddr := rfl
@[simp] theorem State.setDt_faultPc (s : State) (b : Byte) : (s.setDt b).faultPc = s.faultPc := rfl
@[simp] theorem State.setDt_mem (s : State) (b : Byte) : (s.setDt b).mem = s.mem := rfl
@[simp] theorem State.setDt_fb (s : State) (b : Byte) : (s.setDt b).fb = s.fb := rfl
@[simp] theorem State.setDt_waiting (s : State) (b : Byte) : (s.setDt b).waiting = s.waiting := rfl
@[simp] theorem State.setDt_decodeFail (s : State) (b : Byte) : (s.setDt b).decodeFail = s.decodeFail := rfl
@[simp] theorem State.setDt_trace (s : State) (b : Byte) : (s.setDt b).trace = s.trace := rfl
@[simp] theorem State.setDt_keys (s : State) (b : Byte) : (s.setDt b).keys = s.keys := rfl
@[simp] theorem State.setDt_rnd (s : State) (b : Byte) : (s.setDt b).rnd = s.rnd := rfl
@[simp] theorem State.setDt_script (s : State) (b : Byte) : (s.setDt b).script = s.script := rfl
@[simp] theorem State.setDt_draws (s : State) (b : Byte) : (s.setDt b).draws = s.draws := rfl
@[simp] theorem State.setDt_params (s : State) (b : Byte) : (s.setDt b).params = s.params := rfl
@[simp] theorem State.setDt_reg (s : State) (b : Byte) (y : Reg) : (s.setDt b).reg y = s.reg y := rfl

/-! `State.setSt` -/

@[simp] theorem State.setSt_v (s : State) (b : Byte) : (s.setSt b).v = s.v := rfl
@[simp] theorem State.setSt_i (s : State) (b : Byte) : (s.setSt b).i = s.i := rfl
@[simp] theorem State.setSt_pc (s : State) (b : Byte) : (s.setSt b).pc = s.pc := rfl
@[simp] theorem State.setSt_sp (s : State) (b : Byte) : (s.setSt b).sp = s.sp := rfl
@[simp] theorem State.setSt_dt (s : State) (b : Byte) : (s.setSt b).dt = s.dt := rfl
@[simp] theorem State.setSt_st (s : State) (b : Byte) : (s.setSt b).st = b := rfl
@[simp] theorem State.setSt_fault (s : State) (b : Byte) : (s.setSt b).fault = s.fault := rfl
@[simp] theorem State.setSt_faultCause (s : State) (b : Byte) : (s.setSt b).faultCause = s.faultCause := rfl
@[simp] theorem State.setSt_faultAddr (s : State) (b : Byte) : (s.setSt b).faultAddr = s.faultAddr := rfl
@[simp] theorem State.setSt_faultPc (s : State) (b : Byte) : (s.setSt b).faultPc = s.faultPc := rfl
@[simp] theorem State.setSt_mem (s : State) (b : Byte) : (s.setSt b).mem = s.mem := rfl
@[simp] theorem State.setSt_fb (s : State) (b : Byte) : (s.setSt b).fb = s.fb := rfl
@[simp] theorem State.setSt_waiting (s : State) (b : Byte) : (s.setSt b).waiting = s.waiting := rfl
@[simp] theorem State.setSt_decodeFail (s : State) (b : Byte) : (s.setSt b).decodeFail = s.decodeFail := rfl
@[simp] theorem State.setSt_trace (s : State) (b : Byte) : (s.setSt b).trace = s.trace := rfl
@[simp] theorem State.setSt_keys (s : State) (b : Byte) : (s.setSt b).keys = s.keys := rfl
@[simp] theorem State.setSt_rnd (s : State) (b : Byte) : (s.setSt b).rnd = s.rnd := rfl
@[simp] theorem State.setSt_script (s : State) (b : Byte) : (s.setSt b).script = s.script := rfl
@[simp] theorem State.setSt_draws (s : State) (b : Byte) : (s.setSt b).draws = s.draws := rfl
@[simp] theorem State.setSt_params (s : State) (b : Byte) : (s.setSt b).params = s.params := rfl
@[simp] theorem State.setSt_reg (s : State) (b : Byte) (y : Reg) : (s.setSt b).reg y = s.reg y := rfl

/-! `State.setMem` -/

@[simp] theorem State.setMem_v (s : State) (m : Memory) : (s.setMem m).v = s.v := rfl
@[simp] theorem State.setMem_i (s : State) (m : Memory) : (s.setMem m).i = s.i := rfl
@[simp] theorem State.setMem_pc (s : State) (m : Memory) : (s.setMem m).pc = s.pc := rfl
@[simp] theorem State.setMem_sp (s : State) (m : Memory) : (s.setMem m).sp = s.sp := rfl
@[simp] theorem State.setMem_dt (s : State) (m : Memory) : (s.setMem m).dt = s.dt := rfl
@[simp] theorem State.setMem_st (s : State) (m : Memory) : (s.setMem m).st = s.st := rfl
@[simp] theorem State.setMem_fault (s : State) (m : Memory) : (s.setMem m).fault = s.fault := rfl
@[simp] theorem State.setMem_faultCause (s : State) (m : Memory) : (s.setMem m).faultCause = s.faultCause := rfl
@[simp] theorem State.setMem_faultAddr (s : State) (m : Memory) : (s.setMem m).faultAddr = s.faultAddr := rfl
@[simp] theorem State.setMem_faultPc (s : State) (m : Memory) : (s.setMem m).faultPc = s.faultPc := rfl
@[simp] theorem State.setMem_mem (s : State) (m : Memory) : (s.setMem m).mem = m := rfl
@[simp] theorem State.setMem_fb (s : State) (m : Memory) : (s.setMem m).fb = s.fb := rfl
@[simp] theorem State.setMem_waiting (s : State) (m : Memory) : (s.setMem m).waiting = s.waiting := rfl
@[simp] theorem State.setMem_decodeFail (s : State) (m : Memory) : (s.setMem m).decodeFail = s.decodeFail := rfl
@[simp] theorem State.setMem_trace (s : State) (m : Memory) : (s.setMem m).trace = s.trace := rfl
@[simp] theorem State.setMem_keys (s : State) (m : Memory) : (s.setMem m).keys = s.keys := rfl
@[simp] theorem State.setMem_rnd (s : State) (m : Memory) : (s.setMem m).rnd = s.rnd := rfl
@[simp] theorem State.setMem_script (s : State) (m : Memory) : (s.setMem m).script = s.script := rfl
@[simp] theorem State.setMem_draws (s : State) (m : Memory) : (s.setMem m).draws = s.draws := rfl
@[simp] theorem State.setMem_params (s : State) (m : Memory) : (s.setMem m).params = s.params := rfl
@[simp] theorem State.setMem_reg (s : State) (m : Memory) (y : Reg) : (s.setMem m).reg y = s.reg y := rfl

/-! `State.setFb` -/

@[simp] theorem State.setFb_v (s : State) (f : Frame) : (s.setFb f).v = s.v := rfl
@[simp] theorem State.setFb_i (s : State) (f : Frame) : (s.setFb f).i = s.i := rfl
@[simp] theorem State.setFb_pc (s : State) (f : Frame) : (s.setFb f).pc = s.pc := rfl
@[simp] theorem State.setFb_sp (s : State) (f : Frame) : (s.setFb f).sp = s.sp := rfl
@[simp] theorem State.setFb_dt (s : State) (f : Frame) : (s.setFb f).dt = s.dt := rfl
@[simp] theorem State.setFb_st (s : State) (f : Frame) : (s.setFb f).st = s.st := rfl
@[simp] theorem State.setFb_fault (s : State) (f : Frame) : (s.setFb f).fault = s.fault := rfl
@[simp] theorem State.setFb_faultCause (s : State) (f : Frame) : (s.setFb f).faultCause = s.faultCause := rfl
@[simp] theorem State.setFb_faultAddr (s : State) (f : Frame) : (s.setFb f).faultAddr = s.faultAddr := rfl
@[simp] theorem State.setFb_faultPc (s : State) (f : Frame) : (s.setFb f).faultPc = s.faultPc := rfl
@[simp] theorem State.setFb_mem (s : State) (f : Frame) : (s.setFb f).mem = s.mem := rfl
@[simp] theorem State.setFb_fb (s : State) (f : Frame) : (s.setFb f).fb = f := rfl
@[simp] theorem State.setFb_waiting (s : State) (f : Frame) : (s.setFb f).waiting = s.waiting := rfl
@[simp] theorem State.setFb_decodeFail (s : State) (f : Frame) : (s.setFb f).decodeFail = s.decodeFail := rfl
@[simp] theorem State.setFb_trace (s : State) (f : Frame) : (s.setFb f).trace = s.trace := rfl
@[simp] theorem State.setFb_keys (s : State) (f : Frame) : (s.setFb f).keys = s.keys := rfl
@[simp] theorem State.setFb_rnd (s : State) (f : Frame) : (s.setFb f).rnd = s.rnd := rfl
@[simp] theorem State.setFb_script (s : State) (f : Frame) : (s.setFb f).script = s.script := rfl
@[simp] theorem State.setFb_draws (s : State) (f : Frame) : (s.setFb f).draws = s.draws := rfl
@[simp] theorem State.setFb_params (s : State) (f : Frame) : (s.setFb f).params = s.params := rfl
@[simp] theorem State.setFb_reg (s : State) (f : Frame) (y : Reg) : (s.setFb f).reg y = s.reg y := rfl

/-! `State.setWaiting` -/

@[simp] theorem State.setWaiting_v (s : State) (w : Bool) : (s.setWaiting w).v = s.v := rfl
@[simp] theorem State.setWaiting_i (s : State) (w : Bool) : (s.setWaiting w).i = s.i := rfl
@[simp] theorem State.setWaiting_pc (s : State) (w : Bool) : (s.setWaiting w).pc = s.pc := rfl
@[simp] theorem State.setWaiting_sp (s : State) (w : Bool) : (s.setWaiting w).sp = s.sp := rfl
@[simp] theorem State.setWaiting_dt (s : State) (w : Bool) : (s.setWaiting w).dt = s.dt := rfl
@[simp] theorem State.setWaiting_st (s : State) (w : Bool) : (s.setWaiting w).st = s.st := rfl
@[simp] theorem State.setWaiting_fault (s : State) (w : Bool) : (s.setWaiting w).fault = s.fault := rfl
@[simp] theorem State.setWaiting_faultCause (s : State) (w : Bool) : (s.setWaiting w).faultCause = s.faultCause := rfl
@[simp] theorem State.setWaiting_faultAddr (s : State) (w : Bool) : (s.setWaiting w).faultAddr = s.faultAddr := rfl
@[simp] theorem State.setWaiting_faultPc (s : State) (w : Bool) : (s.setWaiting w).faultPc = s.faultPc := rfl
@[simp] theorem State.setWaiting_mem (s : State) (w : Bool) : (s.setWaiting w).mem = s.mem := rfl
@[simp] theorem State.setWaiting_fb (s : State) (w : Bool) : (s.setWaiting w).fb = s.fb := rfl
@[simp] theorem State.setWaiting_waiting (s : State) (w : Bool) : (s.setWaiting w).waiting = w := rfl
@[simp] theorem State.setWaiting_decodeFail (s : State) (w : Bool) : (s.setWaiting w).decodeFail = s.decodeFail := rfl
@[simp] theorem State.setWaiting_trace (s : State) (w : Bool) : (s.setWaiting w).trace = s.trace := rfl
@[simp] theorem State.setWaiting_keys (s : State) (w : Bool) : (s.setWaiting w).keys = s.keys := rfl
@[simp] theorem State.setWaiting_rnd (s : State) (w : Bool) : (s.setWaiting w).rnd = s.rnd := rfl
@[simp] theorem State.setWaiting_script (s : State) (w : Bool) : (s.setWaiting w).script = s.script := rfl
@[simp] theorem State.setWaiting_draws (s : State) (w : Bool) : (s.setWaiting w).draws = s.draws := rfl
@[simp] theorem State.setWaiting_params (s : State) (w : Bool) : (s.setWaiting w).params = s.params := rfl
@[simp] theorem State.setWaiting_reg (s : State) (w : Bool) (y : Reg) : (s.setWaiting w).reg y = s.reg y := rfl

/-! `State.setDecodeFail` -/

@[simp] theorem State.setDecodeFail_v (s : State) (d : Bool) : (s.setDecodeFail d).v = s.v := rfl
@[simp] theorem State.setDecodeFail_i (s : State) (d : Bool) : (s.setDecodeFail d).i = s.i := rfl
@[simp] theorem State.setDecodeFail_pc (s : State) (d : Bool) : (s.setDecodeFail d).pc = s.pc := rfl
@[simp] theorem State.setDecodeFail_sp (s : State) (d : Bool) : (s.setDecodeFail d).sp = s.sp := rfl
@[simp] theorem State.setDecodeFail_dt (s : State) (d : Bool) : (s.setDecodeFail d).dt = s.dt := rfl
@[simp] theorem State.setDecodeFail_st (s : State) (d : Bool) : (s.setDecodeFail d).st = s.st := rfl
@[simp] theorem State.setDecodeFail_fault (s : State) (d : Bool) : (s.setDecodeFail d).fault = s.fault := rfl
@[simp] theorem State.setDecodeFail_faultCause (s : State) (d : Bool) : (s.setDecodeFail d).faultCause = s.faultCause := rfl
@[simp] theorem State.setDecodeFail_faultAddr (s : State) (d : Bool) : (s.setDecodeFail d).faultAddr = s.faultAddr := rfl
@[simp] theorem State.setDecodeFail_faultPc (s : State) (d : Bool) : (s.setDecodeFail d).faultPc = s.faultPc := rfl
@[simp] theorem State.setDecodeFail_mem (s : State) (d : Bool) : (s.setDecodeFail d).mem = s.mem := rfl
@[simp] theorem State.setDecodeFail_fb (s : State) (d : Bool) : (s.setDecodeFail d).fb = s.fb := rfl
@[simp] theorem State.setDecodeFail_waiting (s : State) (d : Bool) : (s.setDecodeFail d).waiting = s.waiting := rfl
@[simp] theorem State.setDecodeFail_decodeFail (s : State) (d : Bool) : (s.setDecodeFail d).decodeFail = d := rfl
@[simp] theorem State.setDecodeFail_trace (s : State) (d : Bool) : (s.setDecodeFail d).trace = s.trace := rfl
@[simp] theorem State.setDecodeFail_keys (s : State) (d : Bool) : (s.setDecodeFail d).keys = s.keys := rfl
@[simp] theorem State.setDecodeFail_rnd (s : State) (d : Bool) : (s.setDecodeFail d).rnd = s.rnd := rfl
@[simp] theorem State.setDecodeFail_script (s : State) (d : Bool) : (s.setDecodeFail d).script = s.script := rfl
@[simp] theorem State.setDecodeFail_draws (s : State) (d : Bool) : (s.setDecodeFail d).draws = s.draws := rfl
@[simp] theorem State.setDecodeFail_params (s : State) (d : Bool) : (s.setDecodeFail d).params = s.params := rfl
@[simp] theorem State.setDecodeFail_reg (s : State) (d : Bool) (y : Reg) : (s.setDecodeFail d).reg y = s.reg y := rfl

/-! `State.setTrace` -/

@[simp] theorem State.setTrace_v (s : State) (t : Option Trace) : (s.setTrace t).v = s.v := rfl
@[simp] theorem State.setTrace_i (s : State) (t : Option Trace) : (s.setTrace t).i = s.i := rfl
@[simp] theorem State.setTrace_pc (s : State) (t : Option Trace) : (s.setTrace t).pc = s.pc := rfl
@[simp] theorem State.setTrace_sp (s : State) (t : Option Trace) : (s.setTrace t).sp = s.sp := rfl
@[simp] theorem State.setTrace_dt (s : State) (t : Option Trace) : (s.setTrace t).dt = s.dt := rfl
@[simp] theorem State.setTrace_st (s : State) (t : Option Trace) : (s.setTrace t).st = s.st := rfl
@[simp] theorem State.setTrace_fault (s : State) (t : Option Trace) : (s.setTrace t).fault = s.fault := rfl
@[simp] theorem State.setTrace_faultCause (s : State) (t : Option Trace) : (s.setTrace t).faultCause = s.faultCause := rfl
@[simp] theorem State.setTrace_faultAddr (s : State) (t : Option Trace) : (s.setTrace t).faultAddr = s.faultAddr := rfl
@[simp] theorem State.setTrace_faultPc (s : State) (t : Option Trace) : (s.setTrace t).faultPc = s.faultPc := rfl
@[simp] theorem State.setTrace_mem (s : State) (t : Option Trace) : (s.setTrace t).mem = s.mem := rfl
@[simp] theorem State.setTrace_fb (s : State) (t : Option Trace) : (s.setTrace t).fb = s.fb := rfl
@[simp] theorem State.setTrace_waiting (s : State) (t : Option Trace) : (s.setTrace t).waiting = s.waiting := rfl
@[simp] theorem State.setTrace_decodeFail (s : State) (t : Option Trace) : (s.setTrace t).decodeFail = s.decodeFail := rfl
@[simp] theorem State.setTrace_trace (s : State) (t : Option Trace) : (s.setTrace t).trace = t := rfl
@[simp] theorem State.setTrace_keys (s : State) (t : Option Trace) : (s.setTrace t).keys = s.keys := rfl
@[simp] theorem State.setTrace_rnd (s : State) (t : Option Trace) : (s.setTrace t).rnd = s.rnd := rfl
@[simp] theorem State.setTrace_script (s : State) (t : Option Trace) : (s.setTrace t).script = s.script := rfl
@[simp] theorem State.setTrace_draws (s : State) (t : Option Trace) : (s.setTrace t).draws = s.draws := rfl
@[simp] theorem State.setTrace_params (s : State) (t : Option Trace) : (s.setTrace t).params = s.params := rfl
@[simp] theorem State.setTrace_reg (s : State) (t : Option Trace) (y : Reg) : (s.setTrace t).reg y = s.reg y := rfl

/-! `State.setInputs` -/

@[simp] theorem State.setInputs_v (s : State) (k : BitVec 16) (r : Byte) : (s.setInputs k r).v = s.v := rfl
@[simp] theorem State.setInputs_i (s : State) (k : BitVec 16) (r : Byte) : (s.setInputs k r).i = s.i := rfl
@[simp] theorem State.setInputs_pc (s : State) (k : BitVec 16) (r : Byte) : (s.setInputs k r).pc = s.pc := rfl
@[simp] theorem State.setInputs_sp (s : State) (k : BitVec 16) (r : Byte) : (s.setInputs k r).sp = s.sp := rfl
@[simp] theorem State.setInputs_dt (s : State) (k : BitVec 16) (r : Byte) : (s.setInputs k r).dt = s.dt := rfl
@[simp] theorem State.setInputs_st (s : State) (k : BitVec 16) (r : Byte) : (s.setInputs k r).st = s.st := rfl
@[simp] theorem State.setInputs_fault (s : State) (k : BitVec 16) (r : Byte) : (s.setInputs k r).fault = s.fault := rfl
@[simp] theorem State.setInputs_faultCause (s : State) (k : BitVec 16) (r : Byte) : (s.setInputs k r).faultCause = s.faultCause := rfl
@[simp] theorem State.setInputs_faultAddr (s : State) (k : BitVec 16) (r : Byte) : (s.setInputs k r).faultAddr = s.faultAddr := rfl
@[simp] theorem State.setInputs_faultPc (s : State) (k : BitVec 16) (r : Byte) : (s.setInputs k r).faultPc = s.faultPc := rfl
@[simp] theorem State.setInputs_mem (s : State) (k : BitVec 16) (r : Byte) : (s.setInputs k r).mem = s.mem := rfl
@[simp] theorem State.setInputs_fb (s : State) (k : BitVec 16) (r : Byte) : (s.setInputs k r).fb = s.fb := rfl
@[simp] theorem State.setInputs_waiting (s : State) (k : BitVec 16) (r : Byte) : (s.setInputs k r).waiting = s.waiting := rfl
@[simp] theorem State.setInputs_decodeFail (s : State) (k : BitVec 16) (r : Byte) : (s.setInputs k r).decodeFail = s.decodeFail := rfl
@[simp] theorem State.setInputs_trace (s : State) (k : BitVec 16) (r : Byte) : (s.setInputs k r).trace = s.trace := rfl
@[simp] theorem State.setInputs_keys (s : State) (k : BitVec 16) (r : Byte) : (s.setInputs k r).keys = k := rfl
@[simp] theorem State.setInputs_rnd (s : State) (k : BitVec 16) (r : Byte) : (s.setInputs k r).rnd = r := rfl
@[simp] theorem State.setInputs_script (s : State) (k : BitVec 16) (r : Byte) : (s.setInputs k r).script = s.script := rfl
@[simp] theorem State.setInputs_draws (s : State) (k : BitVec 16) (r : Byte) : (s.setInputs k r).draws = s.draws := rfl
@[simp] theorem State.setInputs_params (s : State) (k : BitVec 16) (r : Byte) : (s.setInputs k r).params = s.params := rfl
@[simp] theorem State.setInputs_reg (s : State) (k : BitVec 16) (r : Byte) (y : Reg) : (s.setInputs k r).reg y = s.reg y := rfl

/-! `State.setScript` -/

@[simp] theorem State.setScript_v (s : State) (g : List Gap) : (s.setScript g).v = s.v := rfl
@[simp] theorem State.setScript_i (s : State) (g : List Gap) : (s.setScript g).i = s.i := rfl
@[simp] theorem State.setScript_pc (s : State) (g : List Gap) : (s.setScript g).pc = s.pc := rfl
@[simp] theorem State.setScript_sp (s : State) (g : List Gap) : (s.setScript g).sp = s.sp := rfl
@[simp] theorem State.setScript_dt (s : State) (g : List Gap) : (s.setScript g).dt = s.dt := rfl
@[simp] theorem State.setScript_st (s : State) (g : List Gap) : (s.setScript g).st = s.st := rfl
@[simp] theorem State.setScript_fault (s : State) (g : List Gap) : (s.setScript g).fault = s.fault := rfl
@[simp] theorem State.setScript_faultCause (s : State) (g : List Gap) : (s.setScript g).faultCause = s.faultCause := rfl
@[simp] theorem State.setScript_faultAddr (s : State) (g : List Gap) : (s.setScript g).faultAddr = s.faultAddr := rfl
@[simp] theorem State.setScript_faultPc (s : State) (g : List Gap) : (s.setScript g).faultPc = s.faultPc := rfl
@[simp] theorem State.setScript_mem (s : State) (g : List Gap) : (s.setScript g).mem = s.mem := rfl
@[simp] theorem State.setScript_fb (s : State) (g : List Gap) : (s.setScript g).fb = s.fb := rfl
@[simp] theorem State.setScript_waiting (s : State) (g : List Gap) : (s.setScript g).waiting = s.waiting := rfl
@[simp] theorem State.setScript_decodeFail (s : State) (g : List Gap) : (s.setScript g).decodeFail = s.decodeFail := rfl
@[simp] theorem State.setScript_trace (s : State) (g : List Gap) : (s.setScript g).trace = s.trace := rfl
@[simp] theorem State.setScript_keys (s : State) (g : List Gap) : (s.setScript g).keys = s.keys := rfl
@[simp] theorem State.setScript_rnd (s : State) (g : List Gap) : (s.setScript g).rnd = s.rnd := rfl
@[simp] theorem State.setScript_script (s : State) (g : List Gap) : (s.setScript g).script = g := rfl
@[simp] theorem State.setScript_draws (s : State) (g : List Gap) : (s.setScript g).draws = s.draws := rfl
@[simp] theorem State.setScript_params (s : State) (g : List Gap) : (s.setScript g).params = s.params := rfl
@[simp] theorem State.setScript_reg (s : State) (g : List Gap) (y : Reg) : (s.setScript g).reg y = s.reg y := rfl

/-! `State.setDraws` -/

@[simp] theorem State.setDraws_v (s : State) (n : Nat) : (s.setDraws n).v = s.v := rfl
@[simp] theorem State.setDraws_i (s : State) (n : Nat) : (s.setDraws n).i = s.i := rfl
@[simp] theorem State.setDraws_pc (s : State) (n : Nat) : (s.setDraws n).pc = s.pc := rfl
@[simp] theorem State.setDraws_sp (s : State) (n : Nat) : (s.setDraws n).sp = s.sp := rfl
@[simp] theorem State.setDraws_dt (s : State) (n : Nat) : (s.setDraws n).dt = s.dt := rfl
@[simp] theorem State.setDraws_st (s : State) (n : Nat) : (s.setDraws n).st = s.st := rfl
@[simp] theorem State.setDraws_fault (s : State) (n : Nat) : (s.setDraws n).fault = s.fault := rfl
@[simp] theorem State.setDraws_faultCause (s : State) (n : Nat) : (s.setDraws n).faultCause = s.faultCause := rfl
@[simp] theorem State.setDraws_faultAddr (s : State) (n : Nat) : (s.setDraws n).faultAddr = s.faultAddr := rfl
@[simp] theorem State.setDraws_faultPc (s : State) (n : Nat) : (s.setDraws n).faultPc = s.faultPc := rfl
@[simp] theorem State.setDraws_mem (s : State) (n : Nat) : (s.setDraws n).mem = s.mem := rfl
@[simp] theorem State.setDraws_fb (s : State) (n : Nat) : (s.setDraws n).fb = s.fb := rfl
@[simp] theorem State.setDraws_waiting (s : State) (n : Nat) : (s.setDraws n).waiting = s.waiting := rfl
@[simp] theorem State.setDraws_decodeFail (s : State) (n : Nat) : (s.setDraws n).decodeFail = s.decodeFail := rfl
@[simp] theorem State.setDraws_trace (s : State) (n : Nat) : (s.setDraws n).trace = s.trace := rfl
@[simp] theorem State.setDraws_keys (s : State) (n : Nat) : (s.setDraws n).keys = s.keys := rfl
@[simp] theorem State.setDraws_rnd (s : State) (n : Nat) : (s.setDraws n).rnd = s.rnd := rfl
@[simp] theorem State.setDraws_script (s : State) (n : Nat) : (s.setDraws n).script = s.script := rfl
@[simp] theorem State.setDraws_draws (s : State) (n : Nat) : (s.setDraws n).draws = n := rfl
@[simp] theorem State.setDraws_params (s : State) (n : Nat) : (s.setDraws n).params = s.params := rfl
@[simp] theorem State.setDraws_reg (s : State) (n : Nat) (y : Reg) : (s.setDraws n).reg y = s.reg y := rfl

/-! `State.advance` -/

@[simp] theorem State.advance_v (s : State) : s.advance.v = s.v := rfl
@[simp] theorem State.advance_i (s : State) : s.advance.i = s.i := rfl
@[simp] theorem State.advance_pc (s : State) : s.advance.pc = s.pc + 2 := rfl
@[simp] theorem State.advance_sp (s : State) : s.advance.sp = s.sp := rfl
@[simp] theorem State.advance_dt (s : State) : s.advance.dt = s.dt := rfl
@[simp] theorem State.advance_st (s : State) : s.advance.st = s.st := rfl
@[simp] theorem State.advance_fault (s : State) : s.advance.fault = s.fault := rfl
@[simp] theorem State.advance_faultCause (s : State) : s.advance.faultCause = s.faultCause := rfl
@[simp] theorem State.advance_faultAddr (s : State) : s.advance.faultAddr = s.faultAddr := rfl
@[simp] theorem State.advance_faultPc (s : State) : s.advance.faultPc = s.faultPc := rfl
@[simp] theorem State.advance_mem (s : State) : s.advance.mem = s.mem := rfl
@[simp] theorem State.advance_fb (s : State) : s.advance.fb = s.fb := rfl
@[simp] theorem State.advance_waiting (s : State) : s.advance.waiting = s.waiting := rfl
@[simp] theorem State.advance_decodeFail (s : State) : s.advance.decodeFail = s.decodeFail := rfl
@[simp] theorem State.advance_trace (s : State) : s.advance.trace = s.trace := rfl
@[simp] theorem State.advance_keys (s : State) : s.advance.keys = s.keys := rfl
@[simp] theorem State.advance_rnd (s : State) : s.advance.rnd = s.rnd := rfl
@[simp] theorem State.advance_script (s : State) : s.advance.script = s.script := rfl
@[simp] theorem State.advance_draws (s : State) : s.advance.draws = s.draws := rfl
@[simp] theorem State.advance_params (s : State) : s.advance.params = s.params := rfl
@[simp] theorem State.advance_reg (s : State) (y : Reg) : s.advance.reg y = s.reg y := rfl

/-! `State.faulted` -/

@[simp] theorem State.faulted_v (s : State) (c : Cause) (a : Nat) : (s.faulted c a).v = s.v := rfl
@[simp] theorem State.faulted_i (s : State) (c : Cause) (a : Nat) : (s.faulted c a).i = s.i := rfl
@[simp] theorem State.faulted_pc (s : State) (c : Cause) (a : Nat) : (s.faulted c a).pc = s.pc := rfl
@[simp] theorem State.faulted_sp (s : State) (c : Cause) (a : Nat) : (s.faulted c a).sp = s.sp := rfl
@[simp] theorem State.faulted_dt (s : State) (c : Cause) (a : Nat) : (s.faulted c a).dt = s.dt := rfl
@[simp] theorem State.faulted_st (s : State) (c : Cause) (a : Nat) : (s.faulted c a).st = s.st := rfl
@[simp] theorem State.faulted_fault (s : State) (c : Cause) (a : Nat) : (s.faulted c a).fault = true := rfl
@[simp] theorem State.faulted_faultCause (s : State) (c : Cause) (a : Nat) : (s.faulted c a).faultCause = c.code := rfl
@[simp] theorem State.faulted_faultAddr (s : State) (c : Cause) (a : Nat) : (s.faulted c a).faultAddr = BitVec.ofNat 17 a := rfl
@[simp] theorem State.faulted_faultPc (s : State) (c : Cause) (a : Nat) : (s.faulted c a).faultPc = s.pc := rfl
@[simp] theorem State.faulted_mem (s : State) (c : Cause) (a : Nat) : (s.faulted c a).mem = s.mem := rfl
@[simp] theorem State.faulted_fb (s : State) (c : Cause) (a : Nat) : (s.faulted c a).fb = s.fb := rfl
@[simp] theorem State.faulted_waiting (s : State) (c : Cause) (a : Nat) : (s.faulted c a).waiting = s.waiting := rfl
@[simp] theorem State.faulted_decodeFail (s : State) (c : Cause) (a : Nat) : (s.faulted c a).decodeFail = s.decodeFail := rfl
@[simp] theorem State.faulted_trace (s : State) (c : Cause) (a : Nat) : (s.faulted c a).trace = s.trace := rfl
@[simp] theorem State.faulted_keys (s : State) (c : Cause) (a : Nat) : (s.faulted c a).keys = s.keys := rfl
@[simp] theorem State.faulted_rnd (s : State) (c : Cause) (a : Nat) : (s.faulted c a).rnd = s.rnd := rfl
@[simp] theorem State.faulted_script (s : State) (c : Cause) (a : Nat) : (s.faulted c a).script = s.script := rfl
@[simp] theorem State.faulted_draws (s : State) (c : Cause) (a : Nat) : (s.faulted c a).draws = s.draws := rfl
@[simp] theorem State.faulted_params (s : State) (c : Cause) (a : Nat) : (s.faulted c a).params = s.params := rfl
@[simp] theorem State.faulted_reg (s : State) (c : Cause) (a : Nat) (y : Reg) : (s.faulted c a).reg y = s.reg y := rfl

/-! `State.clearFault` -/

@[simp] theorem State.clearFault_v (s : State) : s.clearFault.v = s.v := rfl
@[simp] theorem State.clearFault_i (s : State) : s.clearFault.i = s.i := rfl
@[simp] theorem State.clearFault_pc (s : State) : s.clearFault.pc = s.pc := rfl
@[simp] theorem State.clearFault_sp (s : State) : s.clearFault.sp = s.sp := rfl
@[simp] theorem State.clearFault_dt (s : State) : s.clearFault.dt = s.dt := rfl
@[simp] theorem State.clearFault_st (s : State) : s.clearFault.st = s.st := rfl
@[simp] theorem State.clearFault_fault (s : State) : s.clearFault.fault = false := rfl
@[simp] theorem State.clearFault_faultCause (s : State) : s.clearFault.faultCause = 0 := rfl
@[simp] theorem State.clearFault_faultAddr (s : State) : s.clearFault.faultAddr = 0 := rfl
@[simp] theorem State.clearFault_faultPc (s : State) : s.clearFault.faultPc = 0 := rfl
@[simp] theorem State.clearFault_mem (s : State) : s.clearFault.mem = s.mem := rfl
@[simp] theorem State.clearFault_fb (s : State) : s.clearFault.fb = s.fb := rfl
@[simp] theorem State.clearFault_waiting (s : State) : s.clearFault.waiting = s.waiting := rfl
@[simp] theorem State.clearFault_decodeFail (s : State) : s.clearFault.decodeFail = s.decodeFail := rfl
@[simp] theorem State.clearFault_trace (s : State) : s.clearFault.trace = s.trace := rfl
@[simp] theorem State.clearFault_keys (s : State) : s.clearFault.keys = s.keys := rfl
@[simp] theorem State.clearFault_rnd (s : State) : s.clearFault.rnd = s.rnd := rfl
@[simp] theorem State.clearFault_script (s : State) : s.clearFault.script = s.script := rfl
@[simp] theorem State.clearFault_draws (s : State) : s.clearFault.draws = s.draws := rfl
@[simp] theorem State.clearFault_params (s : State) : s.clearFault.params = s.params := rfl
@[simp] theorem State.clearFault_reg (s : State) (y : Reg) : s.clearFault.reg y = s.reg y := rfl

/-! `State.quiet` -/

@[simp] theorem State.quiet_v (s : State) : s.quiet.v = s.v := rfl
@[simp] theorem State.quiet_i (s : State) : s.quiet.i = s.i := rfl
@[simp] theorem State.quiet_pc (s : State) : s.quiet.pc = s.pc := rfl
@[simp] theorem State.quiet_sp (s : State) : s.quiet.sp = s.sp := rfl
@[simp] theorem State.quiet_dt (s : State) : s.quiet.dt = s.dt := rfl
@[simp] theorem State.quiet_st (s : State) : s.quiet.st = s.st := rfl
@[simp] theorem State.quiet_fault (s : State) : s.quiet.fault = s.fault := rfl
@[simp] theorem State.quiet_faultCause (s : State) : s.quiet.faultCause = s.faultCause := rfl
@[simp] theorem State.quiet_faultAddr (s : State) : s.quiet.faultAddr = s.faultAddr := rfl
@[simp] theorem State.quiet_faultPc (s : State) : s.quiet.faultPc = s.faultPc := rfl
@[simp] theorem State.quiet_mem (s : State) : s.quiet.mem = s.mem := rfl
@[simp] theorem State.quiet_fb (s : State) : s.quiet.fb = s.fb := rfl
@[simp] theorem State.quiet_waiting (s : State) : s.quiet.waiting = false := rfl
@[simp] theorem State.quiet_decodeFail (s : State) : s.quiet.decodeFail = false := rfl
@[simp] theorem State.quiet_trace (s : State) : s.quiet.trace = none := rfl
@[simp] theorem State.quiet_keys (s : State) : s.quiet.keys = s.keys := rfl
@[simp] theorem State.quiet_rnd (s : State) : s.quiet.rnd = s.rnd := rfl
@[simp] theorem State.quiet_script (s : State) : s.quiet.script = s.script := rfl
@[simp] theorem State.quiet_draws (s : State) : s.quiet.draws = s.draws := rfl
@[simp] theorem State.quiet_params (s : State) : s.quiet.params = s.params := rfl
@[simp] theorem State.quiet_reg (s : State) (y : Reg) : s.quiet.reg y = s.reg y := rfl

/-! `State.fetched` -/

@[simp] theorem State.fetched_v (s : State) (w : Word) : (s.fetched w).v = s.v := rfl
@[simp] theorem State.fetched_i (s : State) (w : Word) : (s.fetched w).i = s.i := rfl
@[simp] theorem State.fetched_pc (s : State) (w : Word) : (s.fetched w).pc = s.pc := rfl
@[simp] theorem State.fetched_sp (s : State) (w : Word) : (s.fetched w).sp = s.sp := rfl
@[simp] theorem State.fetched_dt (s : State) (w : Word) : (s.fetched w).dt = s.dt := rfl
@[simp] theorem State.fetched_st (s : State) (w : Word) : (s.fetched w).st = s.st := rfl
@[simp] theorem State.fetched_fault (s : State) (w : Word) : (s.fetched w).fault = s.fault := rfl
@[simp] theorem State.fetched_faultCause (s : State) (w : Word) : (s.fetched w).faultCause = s.faultCause := rfl
@[simp] theorem State.fetched_faultAddr (s : State) (w : Word) : (s.fetched w).faultAddr = s.faultAddr := rfl
@[simp] theorem State.fetched_faultPc (s : State) (w : Word) : (s.fetched w).faultPc = s.faultPc := rfl
@[simp] theorem State.fetched_mem (s : State) (w : Word) : (s.fetched w).mem = s.mem := rfl
@[simp] theorem State.fetched_fb (s : State) (w : Word) : (s.fetched w).fb = s.fb := rfl
@[simp] theorem State.fetched_waiting (s : State) (w : Word) : (s.fetched w).waiting = false := rfl
@[simp] theorem State.fetched_decodeFail (s : State) (w : Word) : (s.fetched w).decodeFail = false := rfl
@[simp] theorem State.fetched_trace (s : State) (w : Word) : (s.fetched w).trace = some ⟨s.pc, w⟩ := rfl
@[simp] theorem State.fetched_keys (s : State) (w : Word) : (s.fetched w).keys = s.keys := rfl
@[simp] theorem State.fetched_rnd (s : State) (w : Word) : (s.fetched w).rnd = s.rnd := rfl
@[simp] theorem State.fetched_script (s : State) (w : Word) : (s.fetched w).script = s.script := rfl
@[simp] theorem State.fetched_draws (s : State) (w : Word) : (s.fetched w).draws = s.draws := rfl
@[simp] theorem State.fetched_params (s : State) (w : Word) : (s.fetched w).params = s.params := rfl
@[simp] theorem State.fetched_reg (s : State) (w : Word) (y : Reg) : (s.fetched w).reg y = s.reg y := rfl

/-! `ticks` and `decodeFailure` -/

@[simp] theorem ticks_v (s : State) (n : Nat) : (ticks n s).v = s.v := rfl
@[simp] theorem ticks_i (s : State) (n : Nat) : (ticks n s).i = s.i := rfl
@[simp] theorem ticks_pc (s : State) (n : Nat) : (ticks n s).pc = s.pc := rfl
@[simp] theorem ticks_sp (s : State) (n : Nat) : (ticks n s).sp = s.sp := rfl
@[simp] theorem ticks_dt (s : State) (n : Nat) : (ticks n s).dt = countDown s.dt n := rfl
@[simp] theorem ticks_st (s : State) (n : Nat) : (ticks n s).st = countDown s.st n := rfl
@[simp] theorem ticks_fault (s : State) (n : Nat) : (ticks n s).fault = s.fault := rfl
@[simp] theorem ticks_faultCause (s : State) (n : Nat) : (ticks n s).faultCause = s.faultCause := rfl
@[simp] theorem ticks_faultAddr (s : State) (n : Nat) : (ticks n s).faultAddr = s.faultAddr := rfl
@[simp] theorem ticks_faultPc (s : State) (n : Nat) : (ticks n s).faultPc = s.faultPc := rfl
@[simp] theorem ticks_mem (s : State) (n : Nat) : (ticks n s).mem = s.mem := rfl
@[simp] theorem ticks_fb (s : State) (n : Nat) : (ticks n s).fb = s.fb := rfl
@[simp] theorem ticks_waiting (s : State) (n : Nat) : (ticks n s).waiting = s.waiting := rfl
@[simp] theorem ticks_decodeFail (s : State) (n : Nat) : (ticks n s).decodeFail = s.decodeFail := rfl
@[simp] theorem ticks_trace (s : State) (n : Nat) : (ticks n s).trace = s.trace := rfl
@[simp] theorem ticks_keys (s : State) (n : Nat) : (ticks n s).keys = s.keys := rfl
@[simp] theorem ticks_rnd (s : State) (n : Nat) : (ticks n s).rnd = s.rnd := rfl
@[simp] theorem ticks_script (s : State) (n : Nat) : (ticks n s).script = s.script := rfl
@[simp] theorem ticks_draws (s : State) (n : Nat) : (ticks n s).draws = s.draws := rfl
@[simp] theorem ticks_params (s : State) (n : Nat) : (ticks n s).params = s.params := rfl
@[simp] theorem ticks_reg (s : State) (n : Nat) (y : Reg) : (ticks n s).reg y = s.reg y := rfl
@[simp] theorem decodeFailure_v (s : State) : (decodeFailure s).v = s.v := rfl
@[simp] theorem decodeFailure_i (s : State) : (decodeFailure s).i = s.i := rfl
@[simp] theorem decodeFailure_pc (s : State) : (decodeFailure s).pc = s.pc + 2 := rfl
@[simp] theorem decodeFailure_sp (s : State) : (decodeFailure s).sp = s.sp := rfl
@[simp] theorem decodeFailure_dt (s : State) : (decodeFailure s).dt = s.dt := rfl
@[simp] theorem decodeFailure_st (s : State) : (decodeFailure s).st = s.st := rfl
@[simp] theorem decodeFailure_fault (s : State) : (decodeFailure s).fault = s.fault := rfl
@[simp] theorem decodeFailure_faultCause (s : State) : (decodeFailure s).faultCause = s.faultCause := rfl
@[simp] theorem decodeFailure_faultAddr (s : State) : (decodeFailure s).faultAddr = s.faultAddr := rfl
@[simp] theorem decodeFailure_faultPc (s : State) : (decodeFailure s).faultPc = s.faultPc := rfl
@[simp] theorem decodeFailure_mem (s : State) : (decodeFailure s).mem = s.mem := rfl
@[simp] theorem decodeFailure_fb (s : State) : (decodeFailure s).fb = s.fb := rfl
@[simp] theorem decodeFailure_waiting (s : State) : (decodeFailure s).waiting = s.waiting := rfl
@[simp] theorem decodeFailure_decodeFail (s : State) : (decodeFailure s).decodeFail = true := rfl
@[simp] theorem decodeFailure_trace (s : State) : (decodeFailure s).trace = s.trace := rfl
@[simp] theorem decodeFailure_keys (s : State) : (decodeFailure s).keys = s.keys := rfl
@[simp] theorem decodeFailure_rnd (s : State) : (decodeFailure s).rnd = s.rnd := rfl
@[simp] theorem decodeFailure_script (s : State) : (decodeFailure s).script = s.script := rfl
@[simp] theorem decodeFailure_draws (s : State) : (decodeFailure s).draws = s.draws := rfl
@[simp] theorem decodeFailure_params (s : State) : (decodeFailure s).params = s.params := rfl
@[simp] theorem decodeFailure_reg (s : State) (y : Reg) : (decodeFailure s).reg y = s.reg y := rfl

/-! Registers -/

@[simp] theorem State.setReg_reg (s : State) (x y : Reg) (b : Byte) :
    (s.setReg x b).reg y = if y = x then b else s.reg y := by
  unfold State.reg State.setReg
  rcases eq_or_ne y x with rfl | h
  · simp
  · have hne : x.val ≠ y.val := fun e => h (Fin.ext e.symm)
    simp [h, hne]

theorem State.setReg_reg_self (s : State) (x : Reg) (b : Byte) : (s.setReg x b).reg x = b := by simp

theorem State.setReg_reg_ne (s : State) {x y : Reg} (b : Byte) (h : y ≠ x) :
    (s.setReg x b).reg y = s.reg y := by simp [h]

/-- Two states with the same registers have the same register vector. -/
theorem State.v_ext {s t : State} (h : ∀ x, s.reg x = t.reg x) : s.v = t.v := by
  apply Vector.ext
  intro k hk
  exact h ⟨k, hk⟩

@[simp] theorem State.resetWith_reg (p : Params) (x : Reg) : (State.resetWith p).reg x = 0 := by
  simp [State.resetWith, State.reg]

/-! The stack's room depends on `SP` and the parameters only. -/

theorem State.stackEntries_congr {s t : State} (hp : t.params = s.params) (hs : t.sp = s.sp) :
    t.stackEntries = s.stackEntries := by
  unfold State.stackEntries
  rw [hp, hs]

@[simp] theorem State.fetched_stackEntries (s : State) (w : Word) : (s.fetched w).stackEntries = s.stackEntries := rfl
@[simp] theorem State.fetched_stackFull (s : State) (w : Word) : (s.fetched w).stackFull = s.stackFull := rfl

end Sys2Proof.Machine
end

