-- ==== Sys2Proof/Laws/Ops.lean ====
section
/-! SUPPORT. What each shared operation can do, said once: which way it went, and what follows it. -/

namespace Sys2Proof.Machine

/-! ### Outcomes -/

theorem andThen_next {o : Result} {k : State → Result} {t : State} :
    andThen o k = .next t ↔ ∃ s, o = .next s ∧ k s = .next t := by
  cases o <;> simp [andThen]

@[simp] theorem andThen_of_next (s : State) (k : State → Result) : andThen (.next s) k = k s := rfl

@[simp] theorem raise_eq (c : Cause) (a : Nat) (s : State) : raise c a s = .next (s.faulted c a) := rfl

/-! ### Checked accesses -/

theorem memRead_eq (c : Cause) (addr n : Nat) (s : State) (k : List Byte → Result) :
    memRead c addr n s k =
      if addr + n ≤ s.params.memSize then k (s.mem.readBytes addr n)
      else .next (s.faulted c (max addr s.params.memSize)) := by
  unfold memRead firstOutOfRange
  split <;> split at * <;> simp_all

theorem memWrite_eq (c : Cause) (addr : Nat) (bytes : List Byte) (s : State) (k : State → Result) :
    memWrite c addr bytes s k =
      if addr + bytes.length ≤ s.params.memSize then k (s.setMem (s.mem.writeBytes addr bytes))
      else .next (s.faulted c (max addr s.params.memSize)) := by
  unfold memWrite firstOutOfRange
  split <;> split at * <;> simp_all

/-- When no push is possible (R59; decision D26). -/
theorem State.stackFull_eq_true {s : State} :
    s.stackFull = true ↔ s.sp.toNat < 2 ∨ ∃ limit, s.params.stackLimit = some limit ∧ limit ≤ s.stackEntries := by
  unfold State.stackFull
  cases s.params.stackLimit <;> simp

/-- `Push` (R59): it raises, or goes on with the word stored, or `SP` was above `MEM_SIZE`. -/
theorem push_eq (ret : Word) (s : State) (k : State → Result) :
    push ret s k =
      if s.stackFull then .next (s.faulted .stackLow s.sp.toNat)
      else if s.sp.toNat ≤ s.params.memSize then
        k ((s.setMem (s.mem.writeBytes (s.sp.toNat - 2) (bytesOfWord ret))).setSp (s.sp - 2))
      else .fault .stackOutsideMemory := by
  unfold push
  split
  · rfl
  · rename_i h
    have h2 : ¬ s.sp.toNat < 2 := fun hlt => h (State.stackFull_eq_true.mpr (.inl hlt))
    have h3 : s.sp.toNat - 2 + 2 = s.sp.toNat := by omega
    unfold firstOutOfRange
    rw [h3]
    split <;> split at * <;> simp_all

/-- `Pop` (R59): it raises, or goes on with the word, or `STACK_TOP` lies above `MEM_SIZE`. -/
theorem pop_eq (s : State) (k : Word → State → Result) :
    pop s k =
      if s.sp.toNat + 2 ≤ s.params.stackTop then
        if s.sp.toNat + 2 ≤ s.params.memSize then k (s.mem.readWord s.sp.toNat) (s.setSp (s.sp + 2))
        else .fault .stackOutsideMemory
      else .next (s.faulted .stackHigh s.sp.toNat) := by
  unfold pop
  by_cases h : s.sp.toNat + 2 ≤ s.params.stackTop
  · have h' : ¬ s.sp.toNat + 2 > s.params.stackTop := by omega
    rw [if_pos h, if_neg h']
    unfold firstOutOfRange
    split <;> split at * <;> simp_all
  · have h' : s.sp.toNat + 2 > s.params.stackTop := by omega
    rw [if_neg h, if_pos h']
    rfl

/-- The two writes of a flag-writing instruction: made, unless `VF_ORDER` refuses the destination (R121). -/
theorem writeResultFlag_eq (x : Reg) (o : AluOut) (s : State) :
    writeResultFlag x o s =
      if s.params.vfOrder = .refuse ∧ x = vf then .refused .flagRegisterDestination
      else .next (s.setResultFlag x o).advance := by
  unfold writeResultFlag
  cases s.params.vfOrder <;> simp

theorem keyNumber_eq (x : Reg) (s : State) (k : Nat → Result) :
    keyNumber x s k =
      if (s.reg x).toNat ≤ 15 then k (s.reg x).toNat else .next (s.faulted .keyIndex (s.reg x).toNat) := by
  unfold keyNumber
  by_cases h : (s.reg x).toNat ≤ 15
  · have : ¬ (s.reg x).toNat > 15 := by omega
    simp [h, this]
  · have : (s.reg x).toNat > 15 := by omega
    simp [h, this]

theorem spriteRows_eq (n : Nibble) (s : State) (k : List Byte → Result) :
    spriteRows n s k =
      if n = 0 ∨ s.i.toNat + n.toNat ≤ s.params.memSize then k (s.mem.readBytes s.i.toNat n.toNat)
      else .next (s.faulted .dataRange (max s.i.toNat s.params.memSize)) := by
  unfold spriteRows
  by_cases h : n = 0
  · subst h
    simp [Memory.readBytes]
  · simp only [h, if_false, false_or, memRead_eq, effAddr, Nat.add_zero]

/-! ### Stack words -/

/-- A pushed word reads back as itself (R52 a). -/
theorem Memory.readWord_writeBytes {size : Nat} {m : Memory} (hm : m.wf size = true) {a : Nat}
    (h : a + 2 ≤ size) (w : Word) :
    (m.writeBytes a (bytesOfWord w)).readWord a = wordOfBytes (hiByte w) (loByte w) := by
  have h0 := Memory.read_writeBytes_in hm a (bytesOfWord w) h 0 (by simp [bytesOfWord])
  have h1 := Memory.read_writeBytes_in hm a (bytesOfWord w) h 1 (by simp [bytesOfWord])
  unfold Memory.readWord
  rw [Nat.add_zero] at h0
  rw [h0, h1]
  rfl

/-! ### Register groups -/

@[simp] theorem length_regGroup (x : Reg) (s : State) : (regGroup x s).length = x.val + 1 := by
  simp [regGroup]

theorem getElem_regGroup (x : Reg) (s : State) (k : Nat) (hk : k < (regGroup x s).length) :
    (regGroup x s)[k] = s.reg ⟨k, by simp at hk; omega⟩ := by
  simp [regGroup, State.reg]

/-- Loading registers changes `V` only. -/
theorem loadRegs_eq (s : State) (k : Nat) (bs : List Byte) :
    ∃ v, loadRegs s k bs = { s with v := v } := by
  induction bs generalizing s k with
  | nil => exact ⟨s.v, rfl⟩
  | cons b bs ih =>
    unfold loadRegs
    split
    · obtain ⟨v, hv⟩ := ih (s.setReg ⟨k, ‹_›⟩ b) (k + 1)
      exact ⟨v, hv⟩
    · exact ih s (k + 1)

/-- Which registers a load of `bs` from register `k` up writes, and with what. -/
theorem loadRegs_reg (s : State) (k : Nat) (bs : List Byte) (y : Reg) :
    (loadRegs s k bs).reg y =
      if h : k ≤ y.val ∧ y.val < k + bs.length then bs[y.val - k]'(by omega) else s.reg y := by
  induction bs generalizing s k with
  | nil => simp [loadRegs]
  | cons b bs ih =>
    have hlen : (b :: bs).length = bs.length + 1 := rfl
    unfold loadRegs
    rw [ih]
    by_cases h1 : k + 1 ≤ y.val ∧ y.val < k + 1 + bs.length
    · have h2 : k ≤ y.val ∧ y.val < k + (b :: bs).length := by omega
      have h3 : y.val - k = (y.val - (k + 1)) + 1 := by omega
      simp only [h1, h2, and_self, dite_true, h3, List.getElem_cons_succ]
    · rw [dif_neg h1]
      by_cases h2 : y.val = k
      · have h3 : k ≤ y.val ∧ y.val < k + (b :: bs).length := by omega
        have h4 : k < 16 := by omega
        have h5 : y = ⟨k, h4⟩ := Fin.ext h2
        subst h5
        simp [h4]
      · have h3 : ¬ (k ≤ y.val ∧ y.val < k + (b :: bs).length) := by omega
        rw [dif_neg h3]
        split
        · rw [State.setReg_reg_ne]
          intro h
          exact h2 (congrArg Fin.val h)
        · rfl

/-! ### Flags and addresses -/

@[simp] theorem flagByte_eq_one (b : Bool) : flagByte b = 1#8 ↔ b = true := by cases b <;> simp [flagByte]

@[simp] theorem flagByte_eq_zero (b : Bool) : flagByte b = 0#8 ↔ b = false := by cases b <;> simp [flagByte]

theorem toNat_hiByte (w : Word) : (hiByte w).toNat = w.toNat / 256 := by
  have := w.isLt
  simp only [hiByte, BitVec.extractLsb'_toNat, Nat.shiftRight_eq_div_pow]
  omega

theorem toNat_loByte (w : Word) : (loByte w).toNat = w.toNat % 256 := by
  simp [loByte, BitVec.extractLsb'_toNat]

theorem toNat_zext16 (nnn : Addr12) : (zext16 nnn).toNat = nnn.toNat := by
  have := nnn.isLt
  simp only [zext16, BitVec.toNat_setWidth]
  omega

/-! ### The keypad -/

theorem mem_pressedKeys {keys : BitVec 16} {k : Nat} : k ∈ pressedKeys keys ↔ k < 16 ∧ keys.getLsbD k = true := by
  simp [pressedKeys]

theorem pressedKeys_eq_nil {keys : BitVec 16} : pressedKeys keys = [] ↔ keys = 0 := by
  rw [List.eq_nil_iff_forall_not_mem]
  simp only [mem_pressedKeys]
  constructor
  · intro h
    apply BitVec.eq_of_getLsbD_eq
    intro k hk
    simpa [hk] using h k
  · rintro rfl k
    simp

/-- No key is taken exactly when none is down, whatever `KEY_SELECT` is. -/
theorem selectKey_eq_none {s : State} : selectKey s = none ↔ s.keys = 0 := by
  rw [← pressedKeys_eq_nil]
  unfold selectKey
  cases s.params.keySelect with
  | lowest => simp
  | anyPressed =>
    dsimp only
    rw [List.getElem?_eq_none_iff]
    constructor
    · intro h
      by_contra hne
      have := Nat.mod_lt (Config.freeKey s.draws) (List.length_pos_iff.mpr hne)
      omega
    · intro h
      simp [h]

/-- The key taken is down, and with the default `KEY_SELECT` no lower one is. -/
theorem selectKey_spec {s : State} {k : Nat} (h : selectKey s = some k) :
    k < 16 ∧ s.keys.getLsbD k = true ∧
      (s.params.keySelect = .lowest → ∀ j < k, s.keys.getLsbD j = false) := by
  unfold selectKey at h
  cases hs : s.params.keySelect with
  | lowest =>
    simp only [hs] at h
    obtain ⟨hk, hd⟩ := mem_pressedKeys.mp (List.mem_of_mem_head? h)
    rw [pressedKeys, List.head?_filter, List.find?_range_eq_some] at h
    exact ⟨hk, hd, fun _ j hj => by simpa using h.2.2 j hj⟩
  | anyPressed =>
    simp only [hs] at h
    obtain ⟨hk, hd⟩ := mem_pressedKeys.mp (List.mem_of_getElem? h)
    exact ⟨hk, hd, fun he => by cases he⟩

/-! ### The timer -/

theorem toNat_countDown (t : Byte) (n : Nat) : (countDown t n).toNat = t.toNat - n := by
  have := t.isLt
  simp only [countDown, BitVec.toNat_ofNat]
  omega

theorem ticks_ticks (m n : Nat) (s : State) : ticks m (ticks n s) = ticks (n + m) s := by
  have h : ∀ t : Byte, countDown (countDown t n) m = countDown t (n + m) := fun t => by
    apply BitVec.eq_of_toNat_eq
    simp only [toNat_countDown]
    omega
  unfold ticks
  simp [h]

/-! ### The gap -/

theorem applyEvents_ticks (n : Nat) (s : State) :
    applyEvents (List.replicate n .tick) s = .next (ticks n s) := by
  induction n generalizing s with
  | zero => simp [applyEvents, ticks, countDown]
  | succ n ih =>
    simp only [List.replicate_succ, applyEvents, applyEvent, andThen_of_next, ih, tick, ticks_ticks, Nat.add_comm 1 n]

/-- Events without a `Reset` are some number of ticks. -/
theorem applyEvents_noReset {es : List Event} (h : ∀ program font, Event.reset program font ∉ es) (s : State) :
    ∃ n, applyEvents es s = .next (ticks n s) := by
  induction es generalizing s with
  | nil => exact ⟨0, by simp [applyEvents, ticks, countDown]⟩
  | cons e es ih =>
    cases e with
    | tick =>
      obtain ⟨n, hn⟩ := ih (fun program font hm => h program font (List.mem_cons_of_mem _ hm)) (tick s)
      exact ⟨1 + n, by rw [applyEvents, applyEvent, andThen_of_next, hn, tick, ticks_ticks]⟩
    | reset program font => exact absurd List.mem_cons_self (h program font)

/-- A gap without a `Reset` counts the timers down and gives the next inputs. -/
theorem passGap_noReset {s : State}
    (h : ∀ g rest, s.script = g :: rest → ∀ program font, Event.reset program font ∉ g.events) :
    ∃ n keys rnd rest,
      passGap s = .next ((((ticks n s).setScript rest).setInputs keys rnd).setDraws (s.draws + 1)) := by
  cases hs : s.script with
  | nil => exact ⟨_, _, _, [], by simp only [passGap, hs, State.setScript]; rw [← hs]; rfl⟩
  | cons g rest =>
    obtain ⟨n, hn⟩ := applyEvents_noReset (h g rest hs) (s.setScript rest)
    exact ⟨n, g.keys, g.rnd, rest, by simp only [passGap, hs, hn, andThen_of_next]; rfl⟩

end Sys2Proof.Machine
end

