-- ==== Sys2Proof/Laws/PerInstr.lean ====
section
/-! SUPPORT. Statements about every instruction as syntax, one lemma a constructor.
Family `EncodeRow`: the word an instruction is encoded as selects the instruction's own row of R86. -/

namespace Sys2Proof.Laws

/-! ### Masked words, a format each -/

theorem wordA_and_family (f : Nibble) (nnn : Addr12) : wordA f nnn &&& 0xF000#16 = wordA f 0 := by
  rw [show (0xF000#16 : Word) = wordA 0xF 0 from rfl]
  apply BitVec.eq_of_getLsbD_eq
  intro k hk
  have hf : k - 12 < 4 := by omega
  simp only [BitVec.getLsbD_and, getLsbD_wordA]
  split
  · simp
  · simp only [show (0xF : Nibble) = BitVec.allOnes 4 from rfl, BitVec.getLsbD_allOnes, hf, decide_true, Bool.and_true]

theorem wordXK_and_low (f : Nibble) (x : Reg) (kk : Byte) : wordXK f x kk &&& 0xF0FF#16 = wordXK f 0 kk := by
  rw [show (0xF0FF#16 : Word) = wordXK 0xF 0 0xFF from rfl]
  apply BitVec.eq_of_getLsbD_eq
  intro k hk
  have hf : k - 8 - 4 < 4 := by omega
  simp only [BitVec.getLsbD_and, getLsbD_wordXK]
  split
  · rename_i h
    simp only [show (0xFF : Byte) = BitVec.allOnes 8 from rfl, BitVec.getLsbD_allOnes, h, decide_true, Bool.and_true]
  · split
    · simp
    · simp only [show (0xF : Nibble) = BitVec.allOnes 4 from rfl, BitVec.getLsbD_allOnes, hf, decide_true, Bool.and_true]

theorem wordXK_and_family (f : Nibble) (x : Reg) (kk : Byte) : wordXK f x kk &&& 0xF000#16 = wordXK f 0 0 := by
  rw [show (0xF000#16 : Word) = wordXK 0xF 0 0 from rfl]
  apply BitVec.eq_of_getLsbD_eq
  intro k hk
  have hf : k - 8 - 4 < 4 := by omega
  simp only [BitVec.getLsbD_and, getLsbD_wordXK]
  split
  · simp
  · split
    · simp
    · simp only [show (0xF : Nibble) = BitVec.allOnes 4 from rfl, BitVec.getLsbD_allOnes, hf, decide_true, Bool.and_true]

theorem wordXYN_and_nibble (f : Nibble) (x y : Reg) (n : Nibble) :
    wordXYN f x y n &&& 0xF00F#16 = wordXYN f 0 0 n := by
  rw [show (0xF00F#16 : Word) = wordXYN 0xF 0 0 0xF from rfl]
  apply BitVec.eq_of_getLsbD_eq
  intro k hk
  have hf : k - 4 - 4 - 4 < 4 := by omega
  simp only [BitVec.getLsbD_and, getLsbD_wordXYN]
  split
  · rename_i h
    simp only [show (0xF : Nibble) = BitVec.allOnes 4 from rfl, BitVec.getLsbD_allOnes, h, decide_true, Bool.and_true]
  · split
    · simp
    · split
      · simp
      · simp only [show (0xF : Nibble) = BitVec.allOnes 4 from rfl, BitVec.getLsbD_allOnes, hf, decide_true, Bool.and_true]

theorem wordXYN_and_family (f : Nibble) (x y : Reg) (n : Nibble) :
    wordXYN f x y n &&& 0xF000#16 = wordXYN f 0 0 0 := by
  rw [show (0xF000#16 : Word) = wordXYN 0xF 0 0 0 from rfl]
  apply BitVec.eq_of_getLsbD_eq
  intro k hk
  have hf : k - 4 - 4 - 4 < 4 := by omega
  simp only [BitVec.getLsbD_and, getLsbD_wordXYN]
  split
  · simp
  · split
    · simp
    · split
      · simp
      · simp only [show (0xF : Nibble) = BitVec.allOnes 4 from rfl, BitVec.getLsbD_allOnes, hf, decide_true, Bool.and_true]

/-! ### The family -/

/-- The encoded word of `i` under the mask of `i`'s row is the row's match value (R86). -/
def EncodeRow.Statement (i : Instr) : Prop := encode i &&& i.row.mask = i.row.pattern

theorem EncodeRow.cls : EncodeRow.Statement .cls :=
  (wordXK_and_low ..).trans rfl

theorem EncodeRow.ret : EncodeRow.Statement .ret :=
  (wordXK_and_low ..).trans rfl

theorem EncodeRow.jp (nnn : Addr12) : EncodeRow.Statement (.jp nnn) :=
  (wordA_and_family ..).trans rfl

theorem EncodeRow.call (nnn : Addr12) : EncodeRow.Statement (.call nnn) :=
  (wordA_and_family ..).trans rfl

theorem EncodeRow.seByte (x : Reg) (kk : Byte) : EncodeRow.Statement (.seByte x kk) :=
  (wordXK_and_family ..).trans rfl

theorem EncodeRow.sneByte (x : Reg) (kk : Byte) : EncodeRow.Statement (.sneByte x kk) :=
  (wordXK_and_family ..).trans rfl

theorem EncodeRow.seReg (x y : Reg) : EncodeRow.Statement (.seReg x y) :=
  (wordXYN_and_family ..).trans rfl

theorem EncodeRow.ldByte (x : Reg) (kk : Byte) : EncodeRow.Statement (.ldByte x kk) :=
  (wordXK_and_family ..).trans rfl

theorem EncodeRow.addByte (x : Reg) (kk : Byte) : EncodeRow.Statement (.addByte x kk) :=
  (wordXK_and_family ..).trans rfl

theorem EncodeRow.ldReg (x y : Reg) : EncodeRow.Statement (.ldReg x y) :=
  (wordXYN_and_nibble ..).trans rfl

theorem EncodeRow.orReg (x y : Reg) : EncodeRow.Statement (.orReg x y) :=
  (wordXYN_and_nibble ..).trans rfl

theorem EncodeRow.andReg (x y : Reg) : EncodeRow.Statement (.andReg x y) :=
  (wordXYN_and_nibble ..).trans rfl

theorem EncodeRow.xorReg (x y : Reg) : EncodeRow.Statement (.xorReg x y) :=
  (wordXYN_and_nibble ..).trans rfl

theorem EncodeRow.addReg (x y : Reg) : EncodeRow.Statement (.addReg x y) :=
  (wordXYN_and_nibble ..).trans rfl

theorem EncodeRow.sub (x y : Reg) : EncodeRow.Statement (.sub x y) :=
  (wordXYN_and_nibble ..).trans rfl

theorem EncodeRow.shr (x y : Reg) : EncodeRow.Statement (.shr x y) :=
  (wordXYN_and_nibble ..).trans rfl

theorem EncodeRow.subn (x y : Reg) : EncodeRow.Statement (.subn x y) :=
  (wordXYN_and_nibble ..).trans rfl

theorem EncodeRow.shl (x y : Reg) : EncodeRow.Statement (.shl x y) :=
  (wordXYN_and_nibble ..).trans rfl

theorem EncodeRow.sneReg (x y : Reg) : EncodeRow.Statement (.sneReg x y) :=
  (wordXYN_and_family ..).trans rfl

theorem EncodeRow.ldI (nnn : Addr12) : EncodeRow.Statement (.ldI nnn) :=
  (wordA_and_family ..).trans rfl

theorem EncodeRow.jpV0 (nnn : Addr12) : EncodeRow.Statement (.jpV0 nnn) :=
  (wordA_and_family ..).trans rfl

theorem EncodeRow.rnd (x : Reg) (kk : Byte) : EncodeRow.Statement (.rnd x kk) :=
  (wordXK_and_family ..).trans rfl

theorem EncodeRow.drw (x y : Reg) (n : Nibble) : EncodeRow.Statement (.drw x y n) :=
  (wordXYN_and_family ..).trans rfl

theorem EncodeRow.skp (x : Reg) : EncodeRow.Statement (.skp x) :=
  (wordXK_and_low ..).trans rfl

theorem EncodeRow.sknp (x : Reg) : EncodeRow.Statement (.sknp x) :=
  (wordXK_and_low ..).trans rfl

theorem EncodeRow.ldVxDt (x : Reg) : EncodeRow.Statement (.ldVxDt x) :=
  (wordXK_and_low ..).trans rfl

theorem EncodeRow.ldVxK (x : Reg) : EncodeRow.Statement (.ldVxK x) :=
  (wordXK_and_low ..).trans rfl

theorem EncodeRow.ldDtVx (x : Reg) : EncodeRow.Statement (.ldDtVx x) :=
  (wordXK_and_low ..).trans rfl

theorem EncodeRow.ldStVx (x : Reg) : EncodeRow.Statement (.ldStVx x) :=
  (wordXK_and_low ..).trans rfl

theorem EncodeRow.addI (x : Reg) : EncodeRow.Statement (.addI x) :=
  (wordXK_and_low ..).trans rfl

theorem EncodeRow.ldF (x : Reg) : EncodeRow.Statement (.ldF x) :=
  (wordXK_and_low ..).trans rfl

theorem EncodeRow.ldB (x : Reg) : EncodeRow.Statement (.ldB x) :=
  (wordXK_and_low ..).trans rfl

theorem EncodeRow.ldMemVx (x : Reg) : EncodeRow.Statement (.ldMemVx x) :=
  (wordXK_and_low ..).trans rfl

theorem EncodeRow.ldVxMem (x : Reg) : EncodeRow.Statement (.ldVxMem x) :=
  (wordXK_and_low ..).trans rfl

end Sys2Proof.Laws
end

