-- ==== Sys2Proof/Tests/Slice0.lean ====
section
/-! SUPPORT. Tests: ill-formed terms refused, decoding, one step per instruction on the numbers of 95_test_vectors.md (or
of the instruction's own rule), and, for every statement with hypotheses, states that meet them. -/

namespace Sys2Proof.Tests

open Sys2Proof.Machine

/-- The start state of the vectors, with `PC` and some registers set. -/
def start (pc : Word) (regs : List (Reg × Byte)) : State :=
  regs.foldl (fun s r => s.setReg r.1 r.2) (State.reset.setPc pc)

/-- Bytes stored from an address up. -/
def stored (a : Nat) (bytes : List Byte) (s : State) : State := s.setMem (s.mem.writeBytes a bytes)

/-- The same state on a machine with these parameters. -/
def onMachine (p : Params) (s : State) : State := { s with params := p }

/-- The event `Step` with a word placed at `PC`. -/
def run (op : Word) (s : State) : Result := coreStep (placeWord s op)

/-- The outcome is a next state that satisfies `p`. -/
def gives (r : Result) (p : State → Bool) : Bool :=
  match r with
  | .next t => p t
  | _ => false

/-- The state has this fault record. -/
def record (cause addr pc : Nat) (t : State) : Bool :=
  t.fault && t.faultCause.toNat == cause && t.faultAddr.toNat == addr && t.faultPc.toNat == pc && t.pc == t.faultPc

/-- The lit pixels of one line. -/
def litColumns (f : Frame) (y : Fin 32) : List Nat :=
  ((List.finRange 64).filter fun x => f.pixel y x).map Fin.val

/-! ### Ill-formed terms are refused -/

/-- R40. -/
theorem test_image_of_3585_bytes_refused :
    imageFits 0x1000 (List.replicate 3585 0) = false ∧ imageFits 0x1000 (List.replicate 3584 0) = true := by
  simp only [imageFits, List.length_replicate]
  decide

/-- R5, R58. -/
theorem test_font_of_79_bytes_refused :
    fontFits (List.replicate 79 0) = false ∧ fontFits Config.font = true := by decide

/-- R85, V6.2. -/
theorem test_word_with_ignored_bits_set_refused :
    canonicalWord 0x05E0 = false ∧ canonicalWord 0x5121 = false ∧ canonicalWord 0x912A = false ∧
    canonicalWord 0x00E0 = true ∧ canonicalWord 0x5120 = true := by decide

/-- R5, decisions D2 and D4. -/
theorem test_parameters_outside_the_constraints_refused :
    Params.legal { memSize := 0x201, stackTop := 0x200 } = false ∧
    Params.legal { memSize := 0x10001 } = false ∧
    Params.legal { memSize := 0x800 } = false ∧
    Params.legal { stackTop := 0 } = false ∧
    Params.legal { stackTop := 0xFFF } = false ∧
    Params.legal { memSize := 0x10000, stackTop := 0x10000 } = false ∧
    Params.legal {} = true ∧ Params.legal { memSize := 0x202, stackTop := 2 } = true ∧
    Params.legal { memSize := 0x10000, stackTop := 0xFFFE } = true := by decide

/-! ### Decoding: every constructor, its word written out from R86 -/

theorem test_decode_flow_words :
    decodeWord 0x00EE = .ok .ret ∧
    decodeWord 0x1204 = .ok (.jp 0x204) ∧
    decodeWord 0x2210 = .ok (.call 0x210) ∧
    decodeWord 0x3A7F = .ok (.seByte 10 0x7F) ∧
    decodeWord 0x4A05 = .ok (.sneByte 10 0x05) ∧
    decodeWord 0x5120 = .ok (.seReg 1 2) ∧
    decodeWord 0x9120 = .ok (.sneReg 1 2) ∧
    decodeWord 0xB300 = .ok (.jpV0 0x300) := by
  and_intros <;> rfl

theorem test_decode_alu_words :
    decodeWord 0x6A2F = .ok (.ldByte 10 0x2F) ∧
    decodeWord 0x70FF = .ok (.addByte 0 0xFF) ∧
    decodeWord 0x8EF0 = .ok (.ldReg 14 15) ∧
    decodeWord 0x8121 = .ok (.orReg 1 2) ∧
    decodeWord 0x8122 = .ok (.andReg 1 2) ∧
    decodeWord 0x8123 = .ok (.xorReg 1 2) ∧
    decodeWord 0x8014 = .ok (.addReg 0 1) ∧
    decodeWord 0x8125 = .ok (.sub 1 2) ∧
    decodeWord 0x8AB6 = .ok (.shr 10 11) ∧
    decodeWord 0x8127 = .ok (.subn 1 2) ∧
    decodeWord 0x8ABE = .ok (.shl 10 11) ∧
    decodeWord 0xC20F = .ok (.rnd 2 0x0F) := by
  and_intros <;> rfl

theorem test_decode_index_and_display_words :
    decodeWord 0x00E0 = .ok .cls ∧
    decodeWord 0xAFFF = .ok (.ldI 0xFFF) ∧
    decodeWord 0xD125 = .ok (.drw 1 2 5) ∧
    decodeWord 0xF21E = .ok (.addI 2) ∧
    decodeWord 0xF029 = .ok (.ldF 0) ∧
    decodeWord 0xF033 = .ok (.ldB 0) ∧
    decodeWord 0xF355 = .ok (.ldMemVx 3) ∧
    decodeWord 0xF265 = .ok (.ldVxMem 2) := by
  and_intros <;> rfl

theorem test_decode_keypad_and_timer_words :
    decodeWord 0xE39E = .ok (.skp 3) ∧
    decodeWord 0xE3A1 = .ok (.sknp 3) ∧
    decodeWord 0xF407 = .ok (.ldVxDt 4) ∧
    decodeWord 0xF30A = .ok (.ldVxK 3) ∧
    decodeWord 0xFA15 = .ok (.ldDtVx 10) ∧
    decodeWord 0xF118 = .ok (.ldStVx 1) := by
  and_intros <;> rfl

/-- V6.1. -/
theorem test_decode_failures_by_name :
    decodeWord 0x0123 = .error (.family0 0x23) ∧ decodeWord 0x812F = .error (.family8 0xF) ∧
    decodeWord 0xE09F = .error (.familyE 0x9F) ∧ decodeWord 0xF1FF = .error (.familyF 0xFF) ∧
    decodeBytes [0x00] = .error .short := by
  and_intros <;> rfl

/-- R51. -/
theorem test_decode_table_word_high_byte_first :
    decodeTableWord 16 0xD125 = some (.drw 1 2 5) ∧ decodeTableWord 16 0x0000 = none ∧
    encodeBytes (.drw 1 2 5) = [0xD1, 0x25] := by decide

/-- R93 to R95. -/
theorem test_listing :
    Instr.listing (.drw 1 2 5) = "DRW V1, V2, 5" ∧ Instr.listing (.ldByte 10 0x2F) = "LD VA, 0x2F" ∧
    Instr.listing (.jp 0x204) = "JP 0x204" ∧ listingOfWord 0xF1FF = ".word 0xF1FF ; not implemented" := by decide

/-! ### One step of every instruction -/

/-- V4.1. -/
theorem test_cls :
    gives (run 0x00E0 ((start 0x200 [(15, 0x07)]).setFb (Frame.clear.setPixel 31 63 true))) (fun t => litColumns t.fb 31 == [] && t.reg 15 == 0x07 && t.pc == 0x202) = true := by decide

/-- V1.5. -/
theorem test_ret :
    gives (run 0x00EE (stored 0xFFE [0x02, 0x06] ((start 0x210 []).setSp 0x0FFE))) (fun t => t.pc == 0x206 && t.sp == 0x1000 && t.mem.read 0xFFE == 0x02) = true := by decide

/-- V1.7. -/
theorem test_ret_empty_stack :
    gives (run 0x00EE (start 0x210 [])) (fun t => record 4 0x1000 0x210 t && t.sp == 0x1000) = true := by decide

/-- V1.1. -/
theorem test_jp :
    gives (run 0x1204 (start 0x20A [])) (fun t => t.pc == 0x204) = true := by decide

/-- V1.4. -/
theorem test_call :
    gives (run 0x2210 (start 0x204 [])) (fun t => t.pc == 0x210 && t.sp == 0x0FFE && t.mem.read 0xFFE == 0x02 && t.mem.read 0xFFF == 0x06) = true := by decide

/-- V1.9. -/
theorem test_call_stack_low :
    gives (run 0x2300 ((start 0x200 []).setSp 0x0001)) (fun t => record 3 1 0x200 t && t.sp == 0x0001 && t.mem.read 0 == 0xF0) = true := by decide

/-- V1.11. -/
theorem test_se_byte :
    gives (run 0x3000 (start 0x208 [])) (fun t => t.pc == 0x20C) = true ∧
    gives (run 0x3000 (start 0x208 [(0, 0x04)])) (fun t => t.pc == 0x20A) = true := by decide

/-- V1.12. -/
theorem test_sne_byte :
    gives (run 0x4A05 (start 0x300 [(10, 0x05)])) (fun t => t.pc == 0x302) = true ∧
    gives (run 0x4A05 (start 0x300 [(10, 0x06)])) (fun t => t.pc == 0x304) = true := by decide

/-- V1.13. -/
theorem test_se_reg :
    gives (run 0x5120 (start 0x240 [(1, 7), (2, 7)])) (fun t => t.pc == 0x244) = true ∧
    gives (run 0x5120 (start 0x240 [(1, 7), (2, 8)])) (fun t => t.pc == 0x242) = true := by decide

/-- V1.16. -/
theorem test_sne_reg :
    gives (run 0x9120 (start 0x240 [(1, 7), (2, 8)])) (fun t => t.pc == 0x244) = true ∧
    gives (run 0x9120 (start 0x240 [(1, 7), (2, 7)])) (fun t => t.pc == 0x242) = true := by decide

/-- V1.19. -/
theorem test_jp_v0 :
    gives (run 0xBFFF (start 0x200 [(0, 0xFF)])) (fun t => t.pc == 0x10FE && !t.fault) = true := by decide

/-- V2.1. -/
theorem test_ld_byte :
    gives (run 0x6A2F (start 0x200 [])) (fun t => t.reg 10 == 0x2F && t.pc == 0x202) = true := by decide

/-- V2.2. -/
theorem test_add_byte :
    gives (run 0x7101 (start 0x200 [(1, 0xFF), (15, 0x55)])) (fun t => t.reg 1 == 0x00 && t.reg 15 == 0x55) = true := by decide

/-- V2.3. -/
theorem test_ld_reg :
    gives (run 0x8EF0 (start 0x200 [(15, 0x01)])) (fun t => t.reg 14 == 0x01) = true := by decide

/-- V2.3. -/
theorem test_or :
    gives (run 0x8121 (start 0x200 [(1, 0x0C), (2, 0x0A), (15, 0x55)])) (fun t => t.reg 1 == 0x0E && t.reg 15 == 0x55) = true := by decide

/-- V2.3. -/
theorem test_and :
    gives (run 0x8122 (start 0x200 [(1, 0x0C), (2, 0x0A), (15, 0x55)])) (fun t => t.reg 1 == 0x08 && t.reg 15 == 0x55) = true := by decide

/-- V2.3. -/
theorem test_xor :
    gives (run 0x8123 (start 0x200 [(1, 0x0C), (2, 0x0A), (15, 0x55)])) (fun t => t.reg 1 == 0x06 && t.reg 15 == 0x55) = true := by decide

/-- S1. -/
theorem test_add_reg :
    gives (run 0x8014 (start 0x200 [(0, 0xF0), (1, 0x20)])) (fun t => t.reg 0 == 0x10 && t.reg 15 == 1) = true := by decide

/-- V2.7. -/
theorem test_add_reg_flag_stays :
    gives (run 0x8F14 (start 0x200 [(15, 0x01), (1, 0x02)])) (fun t => t.reg 15 == 0) = true := by decide

/-- V2.5. -/
theorem test_sub :
    gives (run 0x8015 (start 0x200 [(0, 0x01), (1, 0x02)])) (fun t => t.reg 0 == 0xFF && t.reg 15 == 0) = true := by decide

/-- V2.5. -/
theorem test_sub_equal :
    gives (run 0x8015 (start 0x200 [(0, 0x05), (1, 0x05)])) (fun t => t.reg 0 == 0x00 && t.reg 15 == 0) = true := by decide

/-- V2.6. -/
theorem test_shr :
    gives (run 0x8AB6 (start 0x200 [(10, 0x05), (11, 0xFF)])) (fun t => t.reg 10 == 0x02 && t.reg 15 == 1 && t.reg 11 == 0xFF) = true := by decide

/-- V2.5. -/
theorem test_subn :
    gives (run 0x8017 (start 0x200 [(0, 0x05), (1, 0x03)])) (fun t => t.reg 0 == 0xFE && t.reg 15 == 0) = true := by decide

/-- V2.6. -/
theorem test_shl :
    gives (run 0x801E (start 0x200 [(0, 0x81), (1, 0x33)])) (fun t => t.reg 0 == 0x02 && t.reg 15 == 1 && t.reg 1 == 0x33) = true := by decide

/-- V2.8. -/
theorem test_rnd :
    gives (run 0xC20F ((start 0x200 []).setInputs 0 0xA7)) (fun t => t.reg 2 == 0x07) = true := by decide

/-- V3.1. -/
theorem test_ld_i :
    gives (run 0xAFFF (start 0x200 [])) (fun t => t.i == 0x0FFF) = true := by decide

/-- V3.3. -/
theorem test_add_i :
    gives (run 0xF21E ((start 0x200 [(2, 0x01)]).setI 0xFFFF)) (fun t => t.i == 0x0000 && t.reg 15 == 0) = true := by decide

/-- V3.5. -/
theorem test_ld_f :
    gives (run 0xF029 (start 0x200 [(0, 0x1A)])) (fun t => t.i == 0x0032) = true := by decide

/-- V3.6. -/
theorem test_ld_b :
    gives (run 0xF033 ((start 0x200 [(0, 0x9D)]).setI 0x300)) (fun t => t.mem.readBytes 0x300 3 == [1, 5, 7] && t.i == 0x300) = true := by decide

/-- V3.8. -/
theorem test_ld_b_out_of_range :
    gives (run 0xF033 ((start 0x200 [(0, 0xFF)]).setI 0xFFE)) (fun t => record 2 0x1000 0x200 t && t.mem.read 0xFFE == 0) = true := by decide

/-- V3.11. -/
theorem test_ld_mem_vx :
    gives (run 0xF355 ((start 0x200 [(0, 0x11), (1, 0x22), (2, 0x33), (3, 0x44)]).setI 0x400)) (fun t => t.mem.readBytes 0x400 5 == [0x11, 0x22, 0x33, 0x44, 0] && t.i == 0x404) = true := by decide

/-- V3.16. -/
theorem test_ld_vx_mem :
    gives (run 0xF265 (stored 0x300 [1, 5, 7] ((start 0x200 [(3, 0x99)]).setI 0x300))) (fun t => t.reg 0 == 1 && t.reg 1 == 5 && t.reg 2 == 7 && t.reg 3 == 0x99 && t.i == 0x303) = true := by decide

/-- V3.17. -/
theorem test_ld_vx_mem_out_of_range :
    gives (run 0xF165 (stored 0xFFF [0x77] ((start 0x200 [(0, 0x55), (1, 0x66)]).setI 0xFFF))) (fun t => record 2 0x1000 0x200 t && t.reg 0 == 0x55) = true := by decide

/-- V4.8. -/
theorem test_drw_wraps :
    gives (run 0xD011 (stored 0x300 [0xFF] ((start 0x200 [(0, 126), (1, 33)]).setI 0x300))) (fun t => litColumns t.fb 1 == [0, 1, 2, 3, 4, 5, 62, 63] && t.reg 15 == 0 && t.i == 0x300) = true := by decide

/-- V4.5. -/
theorem test_drw_collides :
    gives (run 0xD011 (stored 0x300 [0xC0] (((start 0x200 []).setI 0x300).setFb (Frame.clear.setPixel 0 1 true)))) (fun t => litColumns t.fb 0 == [0] && t.reg 15 == 1) = true := by decide

/-- V5.1. -/
theorem test_skp :
    gives (run 0xE39E ((start 0x206 [(3, 7)]).setInputs 0x0080 0)) (fun t => t.pc == 0x20A) = true ∧
    gives (run 0xE39E (start 0x206 [(3, 7)])) (fun t => t.pc == 0x208) = true := by decide

/-- V5.4. -/
theorem test_skp_key_index :
    gives (run 0xE39E ((start 0x206 [(3, 0x10)]).setInputs 0xFFFF 0)) (fun t => record 5 0x10 0x206 t) = true := by decide

/-- V5.2. -/
theorem test_sknp :
    gives (run 0xE3A1 ((start 0x206 [(3, 7)]).setInputs 0x0080 0)) (fun t => t.pc == 0x208) = true ∧
    gives (run 0xE3A1 (start 0x206 [(3, 7)])) (fun t => t.pc == 0x20A) = true := by decide

/-- V5.10. -/
theorem test_ld_vx_dt :
    gives (run 0xF407 ((start 0x200 []).setDt 3)) (fun t => t.reg 4 == 3 && t.dt == 3) = true := by decide

/-- V5.6. -/
theorem test_ld_vx_k_waits :
    gives (run 0xF30A (start 0x204 [(3, 0x55)])) (fun t => t.pc == 0x204 && t.reg 3 == 0x55 && t.waiting) = true := by decide

/-- V5.8. -/
theorem test_ld_vx_k_takes_lowest :
    gives (run 0xF30A ((start 0x204 []).setInputs 0x8002 0)) (fun t => t.pc == 0x206 && t.reg 3 == 1 && !t.waiting) = true := by decide

/-- V5.11. -/
theorem test_ld_dt_vx :
    gives (run 0xFA15 (start 0x200 [(10, 5)])) (fun t => t.dt == 5 && t.pc == 0x202) = true := by decide

/-- V5.11. -/
theorem test_ld_st_vx :
    gives (run 0xF118 (start 0x200 [(1, 0x3C)])) (fun t => t.st == 0x3C && t.pc == 0x202) = true := by decide

/-- V6.1. -/
theorem test_decode_failure :
    gives (run 0x812F (start 0x200 [(1, 3)])) (fun t => t.pc == 0x202 && t.decodeFail && !t.fault && t.reg 1 == 3 && t.trace == some ⟨0x200, 0x812F⟩) = true := by decide

/-- V1.22, V1.24. -/
theorem test_fetch_range :
    gives (coreStep (start 0xFFF [])) (fun t => record 1 0x1000 0xFFF t) = true ∧
    gives (coreStep (start 0xFFFF [])) (fun t => record 1 0xFFFF 0xFFFF t) = true := by decide

/-! ### Machines with other parameters -/

/-- R57, R170, MEM_SIZE = 0x800. -/
theorem test_smaller_memory :
    gives (run 0xF033 ((onMachine { memSize := 0x800, stackTop := 0x800 } (start 0x200 [])).setI 0x7FE)) (fun t => record 2 0x800 0x200 t) = true ∧
    gives (run 0xF033 ((onMachine { memSize := 0x800, stackTop := 0x800 } (start 0x200 [])).setI 0x7FD)) (fun t => !t.fault) = true := by decide

/-- Decision D26, STACK_LIMIT = 1. -/
theorem test_stack_limit :
    gives (run 0x2300 (onMachine { stackLimit := some 1 } (start 0x200 []))) (fun t => t.sp == 0x0FFE && !t.fault) = true ∧
    gives (run 0x2300 ((onMachine { stackLimit := some 1 } (start 0x200 [])).setSp 0x0FFE)) (fun t => record 3 0xFFE 0x200 t) = true := by decide

/-- Decision D13. -/
theorem test_vf_order_refuse :
    run 0x8F14 (onMachine { vfOrder := .refuse } (start 0x200 [])) = .refused .flagRegisterDestination ∧
    gives (run 0x8014 (onMachine { vfOrder := .refuse } (start 0x200 [(0, 0xF0), (1, 0x20)]))) (fun t => t.reg 0 == 0x10 && t.reg 15 == 1) = true := ⟨rfl, by decide⟩

/-- Decision D14: with one key down, that key, whatever the free draw is. -/
theorem test_key_select_any :
    selectKey ((onMachine { keySelect := .anyPressed } (start 0x200 [])).setInputs 0x0080 0) = some 7 := by
  have h : pressedKeys 0x0080#16 = [7] := by decide
  simp [selectKey, onMachine, State.setInputs, h, Nat.mod_one]

/-- V5.12. -/
theorem test_tick_clamps :
    (tick ((State.reset.setDt 2).setSt 1)).dt = 1 ∧ (ticks 3 ((State.reset.setDt 2).setSt 1)).dt = 0 ∧
    (ticks 4 ((State.reset.setDt 2).setSt 1)).st = 0 := by decide

/-- Log 22. -/
theorem test_with_fetch_word_runs_first :
    gives (coreStep (State.reset.withFetchWord 16 0x6A2F)) (fun t => t.reg 10 == 0x2F) = true ∧
    gives (coreStep ((State.reset.setPc 0xFFFF).withFetchWord 16 0x6A2F)) (fun t => t.reg 10 == 0x2F) = true := by decide

/-! ### States that meet the hypotheses of the statements -/

theorem test_hyp_DecodeTotalAndRowsDisjoint :
    decodeWord 0x00E0 = .ok .cls ∧ decodeWord 0x0000 = .error (.family0 0) := by
  and_intros <;> rfl

theorem test_hyp_IgnoredBitsSelectNothing :
    decodeWord 0x05E0 = .ok .cls ∧ canonicalWord 0x05E0 = false ∧ decodeWord 0x00E0 = .ok .cls := by
  and_intros <;> rfl

theorem test_hyp_StepRunsTheDecodedInstruction :
    (start 0xFFE []).fault = false ∧ (start 0xFFE []).pc.toNat + 1 < (start 0xFFE []).params.memSize ∧
    decodeWord ((stored 0xFFE [0x6A, 0x2F] (start 0xFFE [])).mem.readWord 0xFFE) = .ok (.ldByte 10 0x2F) := by
  and_intros <;> first | rfl | decide

theorem test_hyp_PlacedWordIsExecutedNext :
    State.reset.params.legal = true ∧ State.reset.mem.wf State.reset.params.memSize = true ∧
    decodeWord 0x6A2F = .ok (.ldByte 10 0x2F) ∧ State.reset.fault = false ∧ State.reset.pc.toNat + 1 < State.reset.params.memSize := by
  and_intros <;> first | rfl | decide

theorem test_hyp_DecodeFailureIsReportedNoOp :
    State.reset.fault = false ∧ State.reset.pc.toNat + 1 < State.reset.params.memSize ∧
    decodeWord (State.reset.mem.readWord State.reset.pc.toNat) = .error (.family0 0) := by
  and_intros <;> first | rfl | decide

theorem test_hyp_FetchOutOfRangeFaults :
    (start 0xFFF []).fault = false ∧ (start 0xFFF []).params.memSize ≤ (start 0xFFF []).pc.toNat + 1 ∧
    (start 0xFFF []).pc.toNat < (start 0xFFF []).params.memSize ∧
    (start 0x1000 []).params.memSize ≤ (start 0x1000 []).pc.toNat := by decide

theorem test_hyp_StoppedCoreStepChangesNothing :
    (State.reset.faulted .dataRange 0x1000).fault = true := by decide

theorem test_hyp_FaultsArePrecise :
    (start 0xFFF []).fault = false ∧ gives (coreStep (start 0xFFF [])) (fun t => t.fault) = true ∧
    gives (run 0x00EE (start 0x210 [])) (fun t => t.fault) = true := by decide

theorem test_hyp_OnlyTheListedInstructionsFault :
    State.reset.fault = false ∧
    gives (exec (.call 0x300) (State.reset.setSp 1)) (fun t => t.fault) = true ∧
    gives (exec (.ret) (State.reset)) (fun t => t.fault) = true ∧
    gives (exec (.drw 0 1 1) (State.reset.setI 0x1000)) (fun t => t.fault) = true ∧
    gives (exec (.ldB 0) (State.reset.setI 0xFFE)) (fun t => t.fault) = true ∧
    gives (exec (.ldMemVx 0) (State.reset.setI 0x1000)) (fun t => t.fault) = true ∧
    gives (exec (.ldVxMem 0) (State.reset.setI 0x1000)) (fun t => t.fault) = true ∧
    gives (exec (.skp 3) (State.reset.setReg 3 16)) (fun t => t.fault) = true ∧
    gives (exec (.sknp 3) (State.reset.setReg 3 255)) (fun t => t.fault) = true := by decide

theorem test_hyp_ExecutePhaseFaultsAreRecorded :
    (State.reset.setSp 1).sp.toNat < 2 ∧
    ((onMachine { stackLimit := some 1 } (State.reset.setSp 0xFFE)).params.stackLimit = some 1 ∧
      1 ≤ (onMachine { stackLimit := some 1 } (State.reset.setSp 0xFFE)).stackEntries) ∧
    State.reset.params.stackTop < (State.reset.setSp 0xFFF).sp.toNat + 2 ∧
    ((2 : Nibble) ≠ 0 ∧ State.reset.params.memSize < (State.reset.setI 0xFFF).i.toNat + (2 : Nibble).toNat) ∧
    State.reset.params.memSize ≤ (State.reset.setI 0xFFE).i.toNat + 2 ∧
    State.reset.params.memSize ≤ (State.reset.setI 0xFF1).i.toNat + (15 : Reg).val ∧
    15 < regNat (State.reset.setReg 3 16) 3 := by decide

/-- No gap is scripted in `s`, so its next gap holds no `Reset`. -/
theorem test_no_reset_next {s : State} (h : s.script = []) : s.NoResetNext := by
  intro g rest hs
  rw [h] at hs
  cases hs

theorem test_hyp_OnlyResetLeavesAFault :
    (State.reset.faulted .dataRange 0x1000).fault = true ∧ (State.reset.faulted .dataRange 0x1000).NoResetNext ∧
    ∃ t, step (State.reset.faulted .dataRange 0x1000) = .next t := ⟨rfl, test_no_reset_next rfl, _, rfl⟩

/-- With no `STACK_LIMIT` a push has room whenever `SP` allows it. -/
theorem test_room {s : State} (h : s.params.stackLimit = none) (h2 : 2 ≤ s.sp.toNat) (hm : s.sp.toNat ≤ s.params.memSize) :
    s.HasStackRoom := by
  refine ⟨h2, hm, fun limit hl => ?_⟩
  rw [h] at hl
  cases hl

/-- With `STACK_LIMIT = 2` a stack of one entry has room. -/
theorem test_room_under_limit : (onMachine { stackLimit := some 2 } (State.reset.setSp 0xFFE)).HasStackRoom := by
  refine ⟨by decide, by decide, fun limit hl => ?_⟩
  cases hl
  decide

theorem test_hyp_CallPushesReturnAddress :
    State.reset.mem.wf State.reset.params.memSize = true ∧ State.reset.HasStackRoom ∧ (State.reset.setSp 2).HasStackRoom ∧
    (onMachine { stackLimit := some 2 } (State.reset.setSp 0xFFE)).HasStackRoom := ⟨rfl, test_room rfl (by decide) (by decide), test_room rfl (by decide) (by decide), test_room_under_limit⟩

theorem test_hyp_CallThenRetReturns :
    State.reset.params.legal = true ∧ State.reset.mem.wf State.reset.params.memSize = true ∧ State.reset.HasStackRoom ∧
    State.reset.sp.toNat ≤ State.reset.params.stackTop ∧ (State.reset.setSp 2).HasStackRoom := ⟨rfl, rfl, test_room rfl (by decide) (by decide), by decide, test_room rfl (by decide) (by decide)⟩

theorem test_hyp_RetPopsReturnAddress :
    State.reset.params.legal = true ∧ (State.reset.setSp 0xFFE).sp.toNat + 2 = State.reset.params.stackTop ∧
    (State.reset.setSp 0).sp.toNat + 2 ≤ State.reset.params.stackTop := by decide

theorem test_hyp_OnlyTheListedCasesStop_CALL :
    2 ≤ (State.reset.setSp 0x1001).sp.toNat ∧
    (State.reset.setSp 0x1001).params.memSize < (State.reset.setSp 0x1001).sp.toNat ∧
    (State.reset.setSp 0x1001).params.stackLimit = none ∧
    exec (.call 0x300) (State.reset.setSp 0x1001) = .fault .stackOutsideMemory := ⟨by decide, by decide, rfl, rfl⟩

theorem test_hyp_OnlyTheListedCasesStop_RET :
    (onMachine { memSize := 0x800 } (State.reset.setSp 0x7FF)).sp.toNat + 2 ≤ 0x1000 ∧ 0x800 < 0x7FF + 2 ∧
    exec .ret (onMachine { memSize := 0x800 } (State.reset.setSp 0x7FF)) = .fault .stackOutsideMemory := ⟨by decide, by decide, rfl⟩

theorem test_hyp_OnlyTheListedCasesStop_VF_ORDER :
    (onMachine { vfOrder := .refuse } State.reset).params.vfOrder = .refuse ∧
    Instr.shr vf 0 ∈ [.addReg vf 0, .sub vf 0, .shr vf 0, .subn vf 0, .shl vf 0] ∧
    ∀ t, exec (.shr vf 0) (onMachine { vfOrder := .refuse } State.reset) ≠ .next t := ⟨rfl, by decide, fun _ h => by cases h⟩

theorem test_hyp_SkipsAdvanceByFourOrTwo :
    regNat (State.reset.setReg 3 15) 3 ≤ 15 ∧ State.reset.reg 3 = 0 ∧ State.reset.reg 3 ≠ 1 ∧
    ((State.reset.setReg 3 15).setInputs 0x8000 0).keys.getLsbD (regNat (State.reset.setReg 3 15) 3) = true ∧
    State.reset.keys.getLsbD (regNat (State.reset.setReg 3 15) 3) = false := by decide

theorem test_hyp_FlagAluWritesResultThenFlag :
    State.reset.params.vfOrder = .flagLast ∧
    ((onMachine { vfOrder := .refuse } State.reset).params.vfOrder = .refuse ∧ (0 : Reg) ≠ vf) ∧
    255 < regNat (start 0 [(0, 255), (1, 1)]) 0 + regNat (start 0 [(0, 255), (1, 1)]) 1 ∧
    ¬ 255 < regNat (start 0 [(0, 255)]) 0 + regNat (start 0 [(0, 255)]) 1 ∧ ¬ regNat State.reset 0 < regNat State.reset 1 ∧
    regNat (start 0 [(0, 0)]) 0 < regNat (start 0 [(1, 1)]) 1 ∧ 128 ≤ regNat (start 0 [(0, 128)]) 0 := by decide

theorem test_hyp_RndMasksTheRandomByte :
    (State.reset.setInputs 0 0xA7).rnd = 0xA7 ∧ State.reset.rnd = 0 := by decide

theorem test_hyp_VfChangesOnlyByFlagWritersOrAsDestination :
    gives (exec (.addReg 0 1) (start 0 [(15, 9)])) (fun t => t.reg vf != (start 0 [(15, 9)]).reg vf) = true ∧
    gives (exec (.sub 0 1) (start 0 [(15, 9)])) (fun t => t.reg vf != (start 0 [(15, 9)]).reg vf) = true ∧
    gives (exec (.shr 0 1) (start 0 [(15, 9)])) (fun t => t.reg vf != (start 0 [(15, 9)]).reg vf) = true ∧
    gives (exec (.subn 0 1) (start 0 [(15, 9)])) (fun t => t.reg vf != (start 0 [(15, 9)]).reg vf) = true ∧
    gives (exec (.shl 0 1) (start 0 [(15, 9)])) (fun t => t.reg vf != (start 0 [(15, 9)]).reg vf) = true ∧
    gives (exec (.drw 0 1 0) (start 0 [(15, 9)])) (fun t => t.reg vf != (start 0 [(15, 9)]).reg vf) = true ∧
    gives (exec (.ldByte 15 1) (start 0 [])) (fun t => t.reg vf != (start 0 []).reg vf) = true ∧
    gives (exec (.addByte 15 1) (start 0 [])) (fun t => t.reg vf != (start 0 []).reg vf) = true ∧
    gives (exec (.ldReg 15 1) (start 0 [(1, 1)])) (fun t => t.reg vf != (start 0 [(1, 1)]).reg vf) = true ∧
    gives (exec (.orReg 15 1) (start 0 [(1, 1)])) (fun t => t.reg vf != (start 0 [(1, 1)]).reg vf) = true ∧
    gives (exec (.andReg 15 1) (start 0 [(15, 9)])) (fun t => t.reg vf != (start 0 [(15, 9)]).reg vf) = true ∧
    gives (exec (.xorReg 15 1) (start 0 [(1, 1)])) (fun t => t.reg vf != (start 0 [(1, 1)]).reg vf) = true ∧
    gives (exec (.rnd 15 1) ((start 0 []).setInputs 0 1)) (fun t => t.reg vf != ((start 0 []).setInputs 0 1).reg vf) = true ∧
    gives (exec (.ldVxDt 15) ((start 0 []).setDt 1)) (fun t => t.reg vf != ((start 0 []).setDt 1).reg vf) = true ∧
    gives (exec (.ldVxK 15) ((start 0 []).setInputs 2 0)) (fun t => t.reg vf != ((start 0 []).setInputs 2 0).reg vf) = true ∧
    gives (exec (.ldVxMem 15) (start 0 [])) (fun t => t.reg vf != (start 0 []).reg vf) = true := by decide

theorem test_hyp_BcdStoresThreeDigits :
    State.reset.mem.wf State.reset.params.memSize = true ∧ effAddr (State.reset.setI 0xFFD) 2 + 1 = State.reset.params.memSize ∧ effAddr (State.reset.setI 0xFFE) 2 = State.reset.params.memSize := by decide

theorem test_hyp_RegisterDumpStoresTheGroup :
    State.reset.mem.wf State.reset.params.memSize = true ∧
    effAddr (State.reset.setI 0xFF0) (15 : Reg).val + 1 = State.reset.params.memSize ∧
    effAddr (State.reset.setI 0xFF1) (15 : Reg).val = State.reset.params.memSize ∧ effAddr (State.reset.setI 0xFFF) (0 : Reg).val < State.reset.params.memSize := by decide

theorem test_hyp_RegisterLoadReadsTheGroup :
    State.reset.mem.wf State.reset.params.memSize = true ∧
    effAddr (State.reset.setI 0xFF0) (15 : Reg).val + 1 = State.reset.params.memSize ∧
    effAddr (State.reset.setI 0xFF1) (15 : Reg).val = State.reset.params.memSize ∧ effAddr (State.reset.setI 0xFFF) (0 : Reg).val < State.reset.params.memSize := by decide

theorem test_hyp_DumpThenLoadRestoresRegisters :
    State.reset.mem.wf State.reset.params.memSize = true ∧
    effAddr (State.reset.setI 0xFF0) (15 : Reg).val < State.reset.params.memSize ∧
    gives (exec (.ldMemVx 15) (State.reset.setI 0xFF0)) (fun t => (t.setI 0xFF0).params == t.params && (t.setI 0xFF0).mem == t.mem && (t.setI 0xFF0).i == 0xFF0) = true := by decide

theorem test_hyp_StoredBytesAreFetchedNext :
    State.reset.params.legal = true ∧ (State.reset.setI 0x201).mem.wf (State.reset.setI 0x201).params.memSize = true ∧ (State.reset.setI 0x201).fault = false ∧
    effAddr (State.reset.setI 0x201) (2 : Reg).val < State.reset.params.memSize ∧
    effAddr (State.reset.setI 0x201) (1 : Reg).val = (State.reset.setI 0x201).pc.toNat + 2 ∧
    effAddr (State.reset.setI 0x201) (2 : Reg).val = (State.reset.setI 0x201).pc.toNat + 3 ∧ (2 : Reg) ≤ 2 := by decide

theorem test_hyp_DrwXorsTheSpriteAndReportsCollision :
    (State.reset.setI 0xFF1).i.toNat + (15 : Nibble).toNat = State.reset.params.memSize ∧ (15 : Nibble) ≠ 0 ∧
    State.reset.params.memSize < (State.reset.setI 0xFF2).i.toNat + (15 : Nibble).toNat := by decide

theorem test_hyp_DrwTwiceRestoresTheFramebuffer :
    (0 : Reg) ≠ 15 ∧ (14 : Reg) ≠ 15 ∧ (State.reset.setI 0xFF1).i.toNat + (15 : Nibble).toNat ≤ State.reset.params.memSize := by decide

theorem test_hyp_KeyWaitBlocksOrTakesPressedKey :
    State.reset.keys = 0 ∧ (State.reset.setInputs 0x8000 0).keys ≠ 0 ∧ State.reset.params.keySelect = .lowest ∧
    (onMachine { keySelect := .anyPressed } State.reset).params.keySelect = .anyPressed := by decide

theorem test_hyp_TickCountsDownAndClamps :
    State.reset.dt = 0 ∧ State.reset.st = 0 ∧ 0 < (State.reset.setDt 1).dt.toNat ∧ 0 < (State.reset.setSt 1).st.toNat := by decide

/-- `LD DT, V0` at `PC`, with `V0 = 5` and a gap without events to come. -/
def loadsDelayTimer : State := (placeWord (start 0x200 [(0, 5)]) 0xF015).setScript [⟨[], 0, 0⟩]

theorem test_hyp_DelayTimerRisesOnlyByLoad :
    loadsDelayTimer.NoResetNext ∧ gives (step loadsDelayTimer) (fun t => loadsDelayTimer.dt.toNat < t.dt.toNat) = true := by
  refine ⟨?_, by decide⟩
  rintro g rest h program font hm
  cases h
  cases hm

theorem test_hyp_ResetBuildsStateAndImage :
    State.reset.params.legal = true ∧ 0x200 + (List.replicate 3584 (0 : Byte)).length ≤ 4096 ∧ Config.font.length = 80 ∧
    4096 < 0x200 + (List.replicate 3585 (0 : Byte)).length ∧ (List.replicate 79 (0 : Byte)).length ≠ 80 ∧ State.reset.params.memSize = 4096 := by
  simp only [List.length_replicate]
  decide

theorem test_hyp_GapGivesTicksResetsAndInputs :
    (∃ c, coreStep (State.reset.setScript [⟨List.replicate 2 .tick, 3, 4⟩]) = .next c) ∧
    (∃ c, coreStep (State.reset.setScript [⟨[.reset [] Config.font], 3, 4⟩]) = .next c) ∧
    (State.reset.script = [] ∧ ∃ c, coreStep State.reset = .next c) := ⟨⟨_, rfl⟩, ⟨_, rfl⟩, rfl, _, rfl⟩

theorem test_hyp_ResetStatesHoldTheInvariant :
    ([] : List Byte).length ≤ 3584 ∧ ([0x12, 0x00] : List Byte).length ≤ 3584 ∧
    Params.legal { memSize := 0x800, stackTop := 0x800, stackLimit := some 16, vfOrder := .refuse } = true ∧
    gives (reset [0x12, 0x00] Config.font (onMachine { memSize := 0x800, stackTop := 0x800 } State.reset)) (fun _ => true) = true := by decide

theorem test_reset_meets_invariant : State.reset.Inv :=
  ⟨by decide, rfl, ⟨by decide, by decide, fun _ h => by cases h⟩, ⟨rfl, rfl, rfl⟩⟩

theorem test_hyp_EveryStepKeepsTheInvariant :
    State.reset.Inv ∧ ∃ t, step State.reset = .next t := ⟨test_reset_meets_invariant, _, rfl⟩

theorem test_hyp_NoStepChangesTheParameters :
    ∃ t, step State.reset = .next t := ⟨_, rfl⟩

theorem test_hyp_EveryStepAnswersANextState :
    State.reset.Inv ∧ State.reset.params.vfOrder = .flagLast ∧ State.reset.NoResetNext := ⟨test_reset_meets_invariant, rfl, test_no_reset_next rfl⟩

theorem test_hyp_OnlyTheNamedInstructionsWriteEachPart :
    gives (exec (.ldI 1) (State.reset)) (fun t => t.i != State.reset.i) = true ∧
    gives (exec (.call 0x300) (State.reset)) (fun t => t.sp != State.reset.sp) = true ∧
    gives (exec (.ldDtVx 0) (start 0 [(0, 1)])) (fun t => t.dt != 0) = true ∧
    gives (exec (.ldStVx 0) (start 0 [(0, 1)])) (fun t => t.st != 0) = true ∧
    gives (exec (.ldB 0) ((start 0 [(0, 1)]).setI 0x300)) (fun t => t.mem != []) = true ∧
    gives (exec (.drw 0 1 1) (State.reset)) (fun t => t.fb.pixel 0 0 != State.reset.fb.pixel 0 0) = true ∧
    gives (exec (.ldVxK 0) (State.reset)) (fun t => t.waiting != State.reset.waiting) = true := by decide

theorem test_hyp_UnreadElementsDoNotMatter :
    (∀ x kk, Instr.ret ≠ .rnd x kk) ∧ (∀ x, Instr.ret ≠ .skp x ∧ Instr.ret ≠ .sknp x ∧ Instr.ret ≠ .ldVxK x) ∧
    Instr.ret ≠ .cls ∧ (∀ x y n, Instr.ret ≠ .drw x y n) ∧ ∀ x, Instr.ret ≠ .ldStVx x := by
  and_intros <;> simp

theorem test_hyp_EvenTargetsKeepPcEven :
    State.reset.pc.toNat % 2 = 0 ∧ (0x204 : Addr12).toNat % 2 = 0 ∧ ((0x300 : Addr12).toNat + regNat State.reset 0) % 2 = 0 ∧
    ((stored 0xFFE [0x02, 0x06] (State.reset.setSp 0x0FFE)).mem.read 0xFFF).toNat % 2 = 0 ∧
    gives (exec (.ret) (stored 0xFFE [0x02, 0x06] (State.reset.setSp 0x0FFE))) (fun t => t.pc == 0x206) = true := by decide

theorem test_hyp_SelfJumpStaysFinished :
    (placeWord State.reset 0x1200).finished = true := by decide

end Sys2Proof.Tests
end

section
/-! PROOFS of the family "encoding": O3 (the rows of R86 against the decoder, R90) and O6 (the fields in terms of the
fetched bytes, R82). -/

namespace Sys2Proof

open Machine Laws

/-! ### Fields of a word in numbers (R82) -/

theorem toNat_fieldF (op : Word) : (fieldF op).toNat = op.toNat / 4096 := by
  have hop := op.isLt
  simp only [fieldF, BitVec.extractLsb'_toNat, Nat.shiftRight_eq_div_pow]
  omega

theorem val_fieldX (op : Word) : (fieldX op).val = op.toNat / 256 % 16 := by
  simp [fieldX, Nat.shiftRight_eq_div_pow]

theorem val_fieldY (op : Word) : (fieldY op).val = op.toNat / 16 % 16 := by
  simp [fieldY, Nat.shiftRight_eq_div_pow]

theorem toNat_fieldN (op : Word) : (fieldN op).toNat = op.toNat % 16 := by
  simp [fieldN, BitVec.extractLsb'_toNat]

theorem toNat_fieldKK (op : Word) : (fieldKK op).toNat = op.toNat % 256 := by
  simp [fieldKK, BitVec.extractLsb'_toNat]

theorem toNat_fieldNNN (op : Word) : (fieldNNN op).toNat = op.toNat % 4096 := by
  simp [fieldNNN, BitVec.extractLsb'_toNat]

theorem toNat_readWord (m : Memory) (a : Nat) :
    (m.readWord a).toNat = 256 * (m.read a).toNat + (m.read (a + 1)).toNat :=
  toNat_wordOfBytes _ _

/-- Settles O6: each field is a quotient or remainder of the word, and the word is `256 * b0 + b1`. -/
theorem fieldsOfTheTwoFetchedBytes : Obligations.FieldsOfTheTwoFetchedBytes := by
  intro m a
  have hb0 := (m.read a).isLt
  have hb1 := (m.read (a + 1)).isLt
  simp only [toNat_fieldF, val_fieldX, val_fieldY, toNat_fieldN, toNat_fieldKK, toNat_fieldNNN, toNat_readWord,
    true_and]
  omega

/-! ### Which words select a row, one lemma a mask (R86) -/

theorem selects_family_iff (p w : Word) :
    OpcodeRow.selects ⟨0xF000, p⟩ w = true ↔ wordA (fieldF w) 0 = p := by
  rw [← wordA_and_family (fieldF w) (fieldNNN w), wordA_fields]
  exact beq_iff_eq

theorem selects_low_iff (p w : Word) :
    OpcodeRow.selects ⟨0xF0FF, p⟩ w = true ↔ wordXK (fieldF w) 0 (fieldKK w) = p := by
  rw [← wordXK_and_low (fieldF w) (fieldX w) (fieldKK w), wordXK_fields]
  exact beq_iff_eq

theorem selects_nibble_iff (p w : Word) :
    OpcodeRow.selects ⟨0xF00F, p⟩ w = true ↔ wordXYN (fieldF w) 0 0 (fieldN w) = p := by
  rw [← wordXYN_and_nibble (fieldF w) (fieldX w) (fieldY w) (fieldN w), wordXYN_fields]
  exact beq_iff_eq

/-! ### A word that decodes selects its instruction's row -/

theorem decode0_row {kk : Byte} {i : Instr} (h : decode0 kk = .ok i) : i.row = ⟨0xF0FF, wordXK 0x0 0 kk⟩ := by
  unfold decode0 at h
  split at h <;> cases h
  all_goals rw [(BitVec.toNat_eq_nat.1 ‹kk.toNat = _›).2]; rfl

theorem decode8_row {x y : Reg} {n : Nibble} {i : Instr} (h : decode8 x y n = .ok i) :
    i.row = ⟨0xF00F, wordXYN 0x8 0 0 n⟩ := by
  unfold decode8 at h
  split at h <;> cases h
  all_goals rw [(BitVec.toNat_eq_nat.1 ‹n.toNat = _›).2]; rfl

theorem decodeE_row {x : Reg} {kk : Byte} {i : Instr} (h : decodeE x kk = .ok i) :
    i.row = ⟨0xF0FF, wordXK 0xE 0 kk⟩ := by
  unfold decodeE at h
  split at h <;> cases h
  all_goals rw [(BitVec.toNat_eq_nat.1 ‹kk.toNat = _›).2]; rfl

theorem decodeF_row {x : Reg} {kk : Byte} {i : Instr} (h : decodeF x kk = .ok i) :
    i.row = ⟨0xF0FF, wordXK 0xF 0 kk⟩ := by
  unfold decodeF at h
  split at h <;> cases h
  all_goals rw [(BitVec.toNat_eq_nat.1 ‹kk.toNat = _›).2]; rfl

theorem row_selects_of_decodeWord {w : Word} {i : Instr} (h : decodeWord w = .ok i) : i.row.selects w = true := by
  unfold decodeWord at h
  split at h
  case h_1 hf => rw [decode0_row h, selects_low_iff, (BitVec.toNat_eq_nat.1 hf).2]; rfl
  case h_9 hf => rw [decode8_row h, selects_nibble_iff, (BitVec.toNat_eq_nat.1 hf).2]; rfl
  case h_15 hf => rw [decodeE_row h, selects_low_iff, (BitVec.toNat_eq_nat.1 hf).2]; rfl
  case h_16 =>
    have hlt := (fieldF w).isLt
    simp only [imp_false] at *
    have hf : (fieldF w).toNat = 15 := by omega
    rw [decodeF_row h, selects_low_iff, (BitVec.toNat_eq_nat.1 hf).2]; rfl
  -- The twelve families that one row fills.
  all_goals
    cases h
    refine (selects_family_iff _ w).2 ?_
    rw [(BitVec.toNat_eq_nat.1 ‹(fieldF w).toNat = _›).2]
    rfl

/-! ### A word that selects a row decodes to an instruction of that row -/

/-- The fields that the row's mask keeps are those of its match value, and the decoder dispatches on no others. -/
theorem decodeWord_map_row_of_row_selects {w : Word} {i : Instr} (h : i.row.selects w = true) :
    (decodeWord w).map Instr.row = .ok i.row := by
  cases i with
  | cls | ret | skp | sknp | ldVxDt | ldVxK | ldDtVx | ldStVx | addI | ldF | ldB | ldMemVx | ldVxMem =>
    have hw := (selects_low_iff _ w).1 h
    have hF := (fieldF_wordXK _ _ _).symm.trans (congrArg fieldF hw)
    have hKK := (fieldKK_wordXK _ _ _).symm.trans (congrArg fieldKK hw)
    rw [decodeWord, hF, hKK]
    rfl
  | ldReg | orReg | andReg | xorReg | addReg | sub | shr | subn | shl =>
    have hw := (selects_nibble_iff _ w).1 h
    have hF := (fieldF_wordXYN _ _ _ _).symm.trans (congrArg fieldF hw)
    have hN := (fieldN_wordXYN _ _ _ _).symm.trans (congrArg fieldN hw)
    rw [decodeWord, hF, hN]
    rfl
  | jp | call | seByte | sneByte | seReg | ldByte | addByte | sneReg | ldI | jpV0 | rnd | drw =>
    have hF := (fieldF_wordA _ _).symm.trans (congrArg fieldF ((selects_family_iff _ w).1 h))
    rw [decodeWord, hF]
    rfl

/-! ### The rows are the rows of the instructions, and no word selects two -/

theorem row_mem_opcodeRows (i : Instr) : i.row ∈ opcodeRows := by
  cases i <;> simp [Instr.row, opcodeRows]

theorem decodeWord_pattern_map_row :
    ∀ r ∈ opcodeRows, (decodeWord r.pattern).map Instr.row = .ok r := by decide

theorem exists_row_eq {r : OpcodeRow} (hr : r ∈ opcodeRows) : ∃ i : Instr, i.row = r := by
  have hp := decodeWord_pattern_map_row r hr
  cases hi : decodeWord r.pattern with
  | ok i => exact ⟨i, by rw [hi] at hp; exact Except.ok.inj hp⟩
  | error e => rw [hi] at hp; cases hp

theorem decodeWord_map_row_of_selects {w : Word} {r : OpcodeRow} (hr : r ∈ opcodeRows) (h : r.selects w = true) :
    (decodeWord w).map Instr.row = .ok r := by
  obtain ⟨i, rfl⟩ := exists_row_eq hr
  exact decodeWord_map_row_of_row_selects h

/-- Two rows that a word selects are both the row of what it decodes to. -/
theorem eq_of_selects {w : Word} {r q : OpcodeRow} (hr : r ∈ opcodeRows) (hq : q ∈ opcodeRows)
    (hrw : r.selects w = true) (hqw : q.selects w = true) : r = q :=
  Except.ok.inj ((decodeWord_map_row_of_selects hr hrw).symm.trans (decodeWord_map_row_of_selects hq hqw))

/-- Settles O3: a word decodes to an instruction of a row exactly when it selects the row. -/
theorem decodeTotalAndRowsDisjoint : Obligations.DecodeTotalAndRowsDisjoint := by
  refine ⟨rfl, ?disjoint, by decide, ?selected, ?unselected, row_mem_opcodeRows⟩
  case disjoint =>
    have hnodup : opcodeRows.Nodup := by decide
    exact hnodup.imp_of_mem fun hr hq hne w ⟨hrw, hqw⟩ => hne (eq_of_selects hr hq hrw hqw)
  case selected =>
    intro w i h r hr
    have hsel := row_selects_of_decodeWord h
    exact ⟨fun hrw => eq_of_selects hr (row_mem_opcodeRows i) hrw hsel, fun hri => hri ▸ hsel⟩
  case unselected =>
    intro w e h r hr
    refine Bool.eq_false_iff.2 fun hrw => ?_
    have hok := decodeWord_map_row_of_selects hr hrw
    rw [h] at hok
    cases hok

end Sys2Proof
end

section
/-! PROOFS of the family "flow": O16 (the two jumps, R101 and R108) and O21 (the six skips, R103 to R107, R161, R162). -/

namespace Sys2Proof

open Machine

/-! ### What the jumps and the skips do -/

theorem exec_jp (nnn : Addr12) (s : State) : exec (.jp nnn) s = .next (s.setPc (zext16 nnn)) := rfl

theorem exec_jpV0 (nnn : Addr12) (s : State) : exec (.jpV0 nnn) s = .next (s.setPc (jumpV0Target nnn s)) := rfl

theorem toNat_jumpV0Target (nnn : Addr12) (s : State) :
    (jumpV0Target nnn s).toNat = (nnn.toNat + regNat s 0) % 2 ^ 16 :=
  BitVec.toNat_ofNat ..

theorem exec_seByte (x : Reg) (kk : Byte) (s : State) : exec (.seByte x kk) s = skipIf (s.reg x == kk) s := rfl

theorem exec_sneByte (x : Reg) (kk : Byte) (s : State) : exec (.sneByte x kk) s = skipIf (s.reg x != kk) s := rfl

theorem exec_seReg (x y : Reg) (s : State) : exec (.seReg x y) s = skipIf (s.reg x == s.reg y) s := rfl

theorem exec_sneReg (x y : Reg) (s : State) : exec (.sneReg x y) s = skipIf (s.reg x != s.reg y) s := rfl

theorem exec_skp_of_le {x : Reg} {s : State} (h : regNat s x ≤ 15) :
    exec (.skp x) s = skipIf (s.keys.getLsbD (regNat s x)) s := by
  rw [exec, execSkp, keyNumber_eq]
  exact if_pos h

theorem exec_sknp_of_le {x : Reg} {s : State} (h : regNat s x ≤ 15) :
    exec (.sknp x) s = skipIf (!s.keys.getLsbD (regNat s x)) s := by
  rw [exec, execSknp, keyNumber_eq]
  exact if_pos h

/-! ### A write of `PC` alone -/

/-- `PC` is no `Part`, so writing it keeps every part. -/
theorem keeps_setPc (s : State) (w : Word) (written : Part → Prop) : Keeps s (s.setPc w) written := by
  intro p
  right
  cases p <;> rfl

theorem completes_setPc {s : State} {w : Word} {n : Nat} (h : w.toNat = n) :
    Completes (.next (s.setPc w)) fun t => t.pc.toNat = n ∧ Keeps s t fun _ => False :=
  ⟨s.setPc w, rfl, h, keeps_setPc s w _⟩

/-- The skip rule (R103), for a Boolean that decides the condition. -/
theorem skipsWhen_skipIf {c : Prop} {b : Bool} (h : b = true ↔ c) (s : State) : SkipsWhen c (skipIf b s) s := by
  refine ⟨_, rfl, fun hc => ?taken, fun hc => ?notTaken, keeps_setPc s _ _⟩
  case taken =>
    rw [if_pos (h.2 hc)]
    exact BitVec.toNat_add ..
  case notTaken =>
    rw [if_neg (mt h.1 hc)]
    exact BitVec.toNat_add ..

/-! ### The obligations -/

/-- Settles O16: each jump is one write of `PC`, with the target's number. -/
theorem jumpsSetOnlyPc : Obligations.JumpsSetOnlyPc := by
  intro nnn s
  rw [exec_jp, exec_jpV0]
  exact ⟨completes_setPc (toNat_zext16 nnn), completes_setPc (toNat_jumpV0Target nnn s)⟩

/-- Settles O21: each skip is the skip rule on a Boolean that decides its condition, for `SKP` and `SKNP` because the key
number raises no fault. -/
theorem skipsAdvanceByFourOrTwo : Obligations.SkipsAdvanceByFourOrTwo := by
  intro x y kk s
  rw [exec_seByte, exec_sneByte, exec_seReg, exec_sneReg]
  refine ⟨skipsWhen_skipIf beq_iff_eq s, skipsWhen_skipIf bne_iff_ne s, skipsWhen_skipIf beq_iff_eq s,
    skipsWhen_skipIf bne_iff_ne s, fun hk => ?_⟩
  rw [exec_skp_of_le hk, exec_sknp_of_le hk]
  exact ⟨skipsWhen_skipIf Iff.rfl s, skipsWhen_skipIf (by rw [Bool.not_eq_true']) s⟩

end Sys2Proof
end

section
/-! PROOFS of the family "alu": O22 (the loads, `ADD` with an immediate and the logic, R122 to R127) and O24 (`RND`,
R133). -/

namespace Sys2Proof

open Machine

/-! ### What the instructions that write one register do -/

theorem exec_ldByte (x : Reg) (kk : Byte) (s : State) : exec (.ldByte x kk) s = .next (s.setReg x kk).advance := rfl

theorem exec_addByte (x : Reg) (kk : Byte) (s : State) :
    exec (.addByte x kk) s = .next (s.setReg x (s.reg x + kk)).advance := rfl

theorem exec_ldReg (x y : Reg) (s : State) : exec (.ldReg x y) s = .next (s.setReg x (s.reg y)).advance := rfl

theorem exec_orReg (x y : Reg) (s : State) :
    exec (.orReg x y) s = .next (s.setReg x (s.reg x ||| s.reg y)).advance := rfl

theorem exec_andReg (x y : Reg) (s : State) :
    exec (.andReg x y) s = .next (s.setReg x (s.reg x &&& s.reg y)).advance := rfl

theorem exec_xorReg (x y : Reg) (s : State) :
    exec (.xorReg x y) s = .next (s.setReg x (s.reg x ^^^ s.reg y)).advance := rfl

theorem exec_rnd (x : Reg) (kk : Byte) (s : State) :
    exec (.rnd x kk) s = .next (s.setReg x (s.rnd &&& kk)).advance := rfl

/-! ### A register write, then `PC` plus 2 -/

theorem keeps_setReg (s : State) (x : Reg) (b : Byte) : Keeps s (s.setReg x b) fun p => p = .reg x := by
  intro p
  cases p with
  | reg r =>
    rcases eq_or_ne r x with rfl | hne
    · exact .inl rfl
    · exact .inr (s.setReg_reg_ne b hne)
  | _ => exact .inr rfl

/-- `PC` is no `Part`, so a frame does not see it advance. -/
theorem keeps_advance {s t : State} {written : Part → Prop} (h : Keeps s t written) : Keeps s t.advance written :=
  fun p => (h p).imp_right fun hp => by cases p <;> exact hp

theorem advances_advance {s t : State} (h : t.pc = s.pc) : Advances s t.advance := by
  rw [Advances, State.advance_pc, h]
  exact BitVec.toNat_add ..

/-- The register-write rule: the value that is written is the one the statement speaks of, `x = 15` included. -/
theorem writesReg_setReg (s : State) (x : Reg) {b : Byte} {P : Byte → Prop} (h : P b) :
    WritesReg (.next (s.setReg x b).advance) s x P := by
  refine ⟨_, rfl, advances_advance rfl, ?value, keeps_advance (keeps_setReg s x b)⟩
  case value =>
    rw [State.advance_reg, State.setReg_reg_self]
    exact h

/-! ### The obligations -/

/-- Settles O22: each of the six is the register-write rule, on a sum modulo 256, a copy or a bitwise operation. -/
theorem loadsAddByteAndLogicWriteOneRegister : Obligations.LoadsAddByteAndLogicWriteOneRegister := by
  intro x y kk s
  rw [exec_ldByte, exec_addByte, exec_ldReg, exec_orReg, exec_andReg, exec_xorReg]
  exact ⟨writesReg_setReg s x rfl, writesReg_setReg s x (BitVec.toNat_add ..), writesReg_setReg s x rfl,
    writesReg_setReg s x fun _ _ => BitVec.getLsbD_or, writesReg_setReg s x fun _ _ => BitVec.getLsbD_and,
    writesReg_setReg s x fun _ _ => BitVec.getLsbD_xor⟩

/-- Settles O24: a byte masked with `kk` has no bit outside `kk`, whatever the random byte is. -/
theorem rndMasksTheRandomByte : Obligations.RndMasksTheRandomByte := by
  rintro x kk b s rfl
  rw [exec_rnd]
  refine writesReg_setReg s x ⟨fun _ _ => BitVec.getLsbD_and, ?outside, ?zero⟩
  case outside =>
    rw [BitVec.and_assoc, BitVec.and_not_self]
    exact BitVec.and_zero
  case zero =>
    rintro rfl
    exact BitVec.and_zero

end Sys2Proof
end

section
/-! PROOFS of the family "index and memory": O26 (the three writes of `I`, R141 to R143). -/

namespace Sys2Proof

open Machine

/-! ### What the instructions that write `I` alone do -/

theorem exec_ldI (nnn : Addr12) (s : State) : exec (.ldI nnn) s = .next (s.setI (zext16 nnn)).advance := rfl

theorem exec_addI (x : Reg) (s : State) : exec (.addI x) s = .next (s.setI (indexPlusReg x s)).advance := rfl

theorem exec_ldF (x : Reg) (s : State) : exec (.ldF x) s = .next (s.setI (glyphAddr (s.reg x))).advance := rfl

/-! ### The values written to `I`, in numbers -/

theorem toNat_indexPlusReg (x : Reg) (s : State) :
    (indexPlusReg x s).toNat = (s.i.toNat + regNat s x) % 2 ^ 16 := by
  rw [indexPlusReg, BitVec.toNat_add, BitVec.toNat_setWidth_of_le (by decide), regNat]

theorem toNat_lowNibble (b : Byte) : (b.extractLsb' 0 4).toNat = b.toNat % 16 := by
  rw [BitVec.extractLsb'_toNat, Nat.shiftRight_zero]

/-- The glyph of the low nibble (R143): at most 5 * 15, so the address does not wrap. -/
theorem toNat_glyphAddr (b : Byte) : (glyphAddr b).toNat = 5 * (b.toNat % 16) := by
  rw [glyphAddr, BitVec.toNat_ofNat, toNat_lowNibble, Config.fontBase, Config.glyphBytes]
  omega

/-! ### A write of `I`, then `PC` plus 2 -/

theorem keeps_setI (s : State) (w : Word) : Keeps s (s.setI w) fun p => p = .index := by
  intro p
  cases p with
  | index => exact .inl rfl
  | _ => exact .inr rfl

/-- The index-write rule: the instruction completes, with the number of the word written in `I`. -/
theorem completes_setI_advance (s : State) {w : Word} {n : Nat} (h : w.toNat = n) :
    Completes (.next (s.setI w).advance) fun t => Advances s t ∧ t.i.toNat = n ∧ Keeps s t fun p => p = .index :=
  ⟨_, rfl, advances_advance rfl, h, keeps_advance (keeps_setI s w)⟩

/-! ### The obligation -/

/-- Settles O26: each of the three is the index-write rule, on an address, a sum modulo 2^16 or a glyph's address. -/
theorem indexInstructionsWriteOnlyI : Obligations.IndexInstructionsWriteOnlyI := by
  intro nnn x s
  rw [exec_ldI, exec_addI, exec_ldF]
  exact ⟨completes_setI_advance s (toNat_zext16 nnn), completes_setI_advance s (toNat_indexPlusReg x s),
    completes_setI_advance s (toNat_glyphAddr (s.reg x))⟩

end Sys2Proof
end

section
/-! PROOFS of the family "display": O32 (`CLS`, R151). -/

namespace Sys2Proof

open Machine

theorem exec_cls (s : State) : exec .cls s = .next (s.setFb Frame.clear).advance := rfl

theorem keeps_setFb (s : State) (f : Frame) : Keeps s (s.setFb f) fun p => ∃ y x, p = .pixel y x := by
  intro p
  cases p with
  | pixel y x => exact .inl ⟨y, x, rfl⟩
  | _ => exact .inr rfl

/-- Settles O32: `CLS` is one write of the framebuffer, with every pixel off, then `PC` plus 2. -/
theorem clsClearsEveryPixel : Obligations.ClsClearsEveryPixel := by
  intro s
  rw [exec_cls]
  exact ⟨_, rfl, advances_advance rfl, Frame.pixel_clear, keeps_advance (keeps_setFb s Frame.clear)⟩

end Sys2Proof
end

section
/-! PROOFS of the family "keypad and timer": O36 (the three timer moves, R164 to R166). -/

namespace Sys2Proof

open Machine

/-! ### What the timer moves do -/

theorem exec_ldVxDt (x : Reg) (s : State) : exec (.ldVxDt x) s = .next (s.setReg x s.dt).advance := rfl

theorem exec_ldDtVx (x : Reg) (s : State) : exec (.ldDtVx x) s = .next (s.setDt (s.reg x)).advance := rfl

theorem exec_ldStVx (x : Reg) (s : State) : exec (.ldStVx x) s = .next (s.setSt (s.reg x)).advance := rfl

/-! ### A write of one timer -/

theorem keeps_setDt (s : State) (b : Byte) : Keeps s (s.setDt b) fun p => p = .dt := by
  intro p
  cases p with
  | dt => exact .inl rfl
  | _ => exact .inr rfl

theorem keeps_setSt (s : State) (b : Byte) : Keeps s (s.setSt b) fun p => p = .st := by
  intro p
  cases p with
  | st => exact .inl rfl
  | _ => exact .inr rfl

/-! ### The obligation -/

/-- Settles O36: the read of `DT` is the register-write rule, and each load of a timer is one write of that timer, then
`PC` plus 2. -/
theorem timerMovesCopyOneByte : Obligations.TimerMovesCopyOneByte := by
  intro x s
  rw [exec_ldVxDt, exec_ldDtVx, exec_ldStVx]
  refine ⟨writesReg_setReg s x rfl, ?loadDelay, ?loadSound⟩
  case loadDelay => exact ⟨_, rfl, advances_advance rfl, rfl, keeps_advance (keeps_setDt s (s.reg x))⟩
  case loadSound => exact ⟨_, rfl, advances_advance rfl, rfl, keeps_advance (keeps_setSt s (s.reg x))⟩

end Sys2Proof
end

section
/-! PROOFS of the family "exceptions": O12 (faults are precise, R173) and O37 (the timer's `Tick`, R184). -/

namespace Sys2Proof

open Machine

/-! ### What taking a fault and reporting a step write -/

/-- Fault entry writes the record alone (R172). -/
theorem keeps_faulted (s : State) (c : Cause) (a : Nat) : Keeps s (s.faulted c a) Part.isRecord := by
  intro p
  cases p with
  | fault => exact .inl (.inl rfl)
  | faultCause => exact .inl (.inr (.inl rfl))
  | faultAddr => exact .inl (.inr (.inr (.inl rfl)))
  | faultPc => exact .inl (.inr (.inr (.inr rfl)))
  | _ => exact .inr rfl

/-- The reports are those of the step (R43), with or without a fetched word on the trace. -/
theorem keeps_quiet_setTrace (s : State) (tr : Option Trace) : Keeps s (s.quiet.setTrace tr) Part.isReport := by
  intro p
  cases p with
  | waiting => exact .inl (.inl rfl)
  | decodeFail => exact .inl (.inr (.inl rfl))
  | trace => exact .inl (.inr (.inr rfl))
  | _ => exact .inr rfl

theorem samePart_trans {s t u : State} {p : Part} (hst : p.same s t) (htu : p.same t u) : p.same s u := by
  cases p <;> exact Eq.trans htu hst

/-- Two transitions in a row write what the second or the first writes. -/
theorem keeps_trans {s t u : State} {P Q : Part → Prop} (hst : Keeps s t P) (htu : Keeps t u Q) :
    Keeps s u fun p => Q p ∨ P p := by
  intro p
  rcases hst p, htu p with ⟨hP | hst, hQ | htu⟩
  · exact .inl (.inr hP)
  · exact .inl (.inr hP)
  · exact .inl (.inl hQ)
  · exact .inr (samePart_trans hst htu)

/-! ### Outcomes that fault only by raising on the state they began with -/

/-- If `r` is a stopped state, it is `s` with a fault raised on it and no other write (R8, R172). -/
def FaultsOnlyByRaise (s : State) (r : Result) : Prop :=
  ∀ t, r = .next t → t.fault = true → ∃ c a, t = s.faulted c a

theorem faultsOnlyByRaise_faulted (s : State) (c : Cause) (a : Nat) :
    FaultsOnlyByRaise s (.next (s.faulted c a)) := by
  rintro _ ⟨⟩ -
  exact ⟨c, a, rfl⟩

theorem faultsOnlyByRaise_running (s : State) {t : State} (h : t.fault = false) :
    FaultsOnlyByRaise s (.next t) := by
  rintro _ ⟨⟩ ht
  exact absurd (h.symm.trans ht) Bool.false_ne_true

/-- The model's own stop (log 7) is no next state, so it takes no fault of the machine. -/
theorem faultsOnlyByRaise_fault (s : State) (e : Fault) : FaultsOnlyByRaise s (.fault e) := nofun

theorem faultsOnlyByRaise_refused (s : State) (e : Refusal) : FaultsOnlyByRaise s (.refused e) := nofun

theorem faultsOnlyByRaise_memRead {c : Cause} {addr n : Nat} {s : State} {k : List Byte → Result}
    (hk : ∀ bytes, FaultsOnlyByRaise s (k bytes)) : FaultsOnlyByRaise s (memRead c addr n s k) := by
  rw [memRead_eq]
  split
  · exact hk _
  · exact faultsOnlyByRaise_faulted s _ _

theorem faultsOnlyByRaise_memWrite {c : Cause} {addr : Nat} {bytes : List Byte} {s : State} {k : State → Result}
    (hk : ∀ m, FaultsOnlyByRaise s (k (s.setMem m))) : FaultsOnlyByRaise s (memWrite c addr bytes s k) := by
  rw [memWrite_eq]
  split
  · exact hk _
  · exact faultsOnlyByRaise_faulted s _ _

theorem faultsOnlyByRaise_push {ret : Word} {s : State} {k : State → Result}
    (hk : ∀ m sp, FaultsOnlyByRaise s (k ((s.setMem m).setSp sp))) : FaultsOnlyByRaise s (push ret s k) := by
  rw [push_eq]
  split
  · exact faultsOnlyByRaise_faulted s _ _
  · split
    · exact hk _ _
    · exact faultsOnlyByRaise_fault s _

theorem faultsOnlyByRaise_pop {s : State} {k : Word → State → Result}
    (hk : ∀ w sp, FaultsOnlyByRaise s (k w (s.setSp sp))) : FaultsOnlyByRaise s (pop s k) := by
  rw [pop_eq]
  split
  · split
    · exact hk _ _
    · exact faultsOnlyByRaise_fault s _
  · exact faultsOnlyByRaise_faulted s _ _

theorem faultsOnlyByRaise_keyNumber {x : Reg} {s : State} {k : Nat → Result}
    (hk : ∀ n, FaultsOnlyByRaise s (k n)) : FaultsOnlyByRaise s (keyNumber x s k) := by
  rw [keyNumber_eq]
  split
  · exact hk _
  · exact faultsOnlyByRaise_faulted s _ _

theorem faultsOnlyByRaise_spriteRows {n : Nibble} {s : State} {k : List Byte → Result}
    (hk : ∀ rows, FaultsOnlyByRaise s (k rows)) : FaultsOnlyByRaise s (spriteRows n s k) := by
  rw [spriteRows_eq]
  split
  · exact hk _
  · exact faultsOnlyByRaise_faulted s _ _

theorem faultsOnlyByRaise_writeResultFlag (x : Reg) (o : AluOut) {s : State} (h : s.fault = false) :
    FaultsOnlyByRaise s (writeResultFlag x o s) := by
  rw [writeResultFlag_eq]
  split
  · exact faultsOnlyByRaise_refused s _
  · exact faultsOnlyByRaise_running s h

theorem loadRegs_fault (s : State) (k : Nat) (bs : List Byte) : (loadRegs s k bs).fault = s.fault := by
  obtain ⟨v, hv⟩ := loadRegs_eq s k bs
  rw [hv]

/-! ### The step, phase by phase -/

/-- The execute phase: an instruction that can fault does so in its checked access, before it writes anything. -/
theorem faultsOnlyByRaise_exec (i : Instr) {s : State} (h : s.fault = false) : FaultsOnlyByRaise s (exec i s) := by
  cases i with
  | ret =>
    rw [exec, execRet]
    exact faultsOnlyByRaise_pop fun _ _ => faultsOnlyByRaise_running s h
  | call =>
    rw [exec, execCall]
    exact faultsOnlyByRaise_push fun _ _ => faultsOnlyByRaise_running s h
  | drw =>
    rw [exec, execDrw]
    exact faultsOnlyByRaise_spriteRows fun _ => faultsOnlyByRaise_running s h
  | ldB =>
    rw [exec, execLdB]
    exact faultsOnlyByRaise_memWrite fun _ => faultsOnlyByRaise_running s h
  | ldMemVx =>
    rw [exec, execLdMemVx]
    exact faultsOnlyByRaise_memWrite fun _ => faultsOnlyByRaise_running s h
  | ldVxMem =>
    rw [exec, execLdVxMem]
    exact faultsOnlyByRaise_memRead fun bytes => faultsOnlyByRaise_running s ((loadRegs_fault s 0 bytes).trans h)
  | skp =>
    rw [exec, execSkp]
    exact faultsOnlyByRaise_keyNumber fun _ => faultsOnlyByRaise_running s h
  | sknp =>
    rw [exec, execSknp]
    exact faultsOnlyByRaise_keyNumber fun _ => faultsOnlyByRaise_running s h
  | addReg | sub | shr | subn | shl => exact faultsOnlyByRaise_writeResultFlag _ _ h
  | ldVxK x =>
    rw [exec, execLdVxK]
    split <;> exact faultsOnlyByRaise_running s h
  | _ => exact faultsOnlyByRaise_running s h

theorem faultsOnlyByRaise_runWord (op : Word) {s : State} (h : s.fault = false) :
    FaultsOnlyByRaise (s.fetched op) (runWord op s) := by
  unfold runWord
  split
  · exact faultsOnlyByRaise_exec _ ((s.fetched_fault op).trans h)
  · exact faultsOnlyByRaise_running _ ((decodeFailure_fault _).trans ((s.fetched_fault op).trans h))

/-- Every fault of a running core is raised on the state before the step, its reports renewed: in the fetch phase with
nothing on the trace, in the execute phase with the fetched word there. -/
theorem coreStep_fault {s t : State} (h : s.fault = false) (hstep : coreStep s = .next t) (ht : t.fault = true) :
    ∃ tr c a, t = (s.quiet.setTrace tr).faulted c a := by
  rw [coreStep, if_neg (by simp [h])] at hstep
  split at hstep
  case h_1 a _ =>
    obtain ⟨c, a, rfl⟩ := faultsOnlyByRaise_faulted s.quiet .fetchRange a t hstep ht
    exact ⟨none, c, a, rfl⟩
  case h_2 =>
    obtain ⟨c, a, rfl⟩ := faultsOnlyByRaise_runWord _ h t hstep ht
    exact ⟨_, c, a, rfl⟩

/-! ### The timer -/

theorem keeps_ticks (n : Nat) (s : State) : Keeps s (ticks n s) fun p => p = .dt ∨ p = .st := by
  intro p
  cases p with
  | dt => exact .inl (.inl rfl)
  | st => exact .inl (.inr rfl)
  | _ => exact .inr rfl

theorem countDown_zero (n : Nat) : countDown 0 n = 0 :=
  BitVec.eq_of_toNat_eq ((toNat_countDown 0 n).trans (Nat.zero_sub n))

/-! ### The obligations -/

/-- Settles O12: the fault was raised on the state before the step with its reports renewed, so the step wrote the
reports and then the record. -/
theorem faultsArePrecise : Obligations.FaultsArePrecise := by
  intro s t h hstep ht
  obtain ⟨tr, c, a, rfl⟩ := coreStep_fault h hstep ht
  exact ⟨rfl, keeps_trans (keeps_quiet_setTrace s tr) (keeps_faulted _ c a)⟩

/-- Settles O37: `n` events `Tick` are one count-down of both timers by `n`, and a single one is the case `n = 1`. -/
theorem tickCountsDownAndClamps : Obligations.TickCountsDownAndClamps := by
  intro s
  refine ⟨⟨rfl, fun _ => toNat_countDown s.dt 1, fun h => ?delayZero, fun _ => toNat_countDown s.st 1,
    fun h => ?soundZero, keeps_ticks 1 s⟩, fun n => ?many⟩
  case delayZero => rw [tick, ticks_dt, h, countDown_zero]
  case soundZero => rw [tick, ticks_st, h, countDown_zero]
  case many =>
    exact ⟨_, applyEvents_ticks n s, toNat_countDown s.dt n, toNat_countDown s.st n, rfl, keeps_ticks n s⟩

end Sys2Proof
end

section
/-! PROOFS of the family "other", encoding: O1 (sample words), O2 (decoding what the encoder makes), O4 (R88's table of
decode failures) and O5 (the ignored bits, R85). -/

namespace Sys2Proof

open Machine

/-! ### Decoding a built word, one lemma a format -/

/-- The fields of the built word are the operands (R81, R82), and the dispatch finds the constructor (R84). -/
theorem decodeWord_encode (i : Instr) : decodeWord (encode i) = .ok i := by
  cases i with
  | jp | call | ldI | jpV0 =>
    rw [encode, decodeWord, fieldF_wordA, fieldNNN_wordA]
    rfl
  | cls | ret | seByte | sneByte | ldByte | addByte | rnd | skp | sknp | ldVxDt | ldVxK | ldDtVx | ldStVx | addI | ldF
  | ldB | ldMemVx | ldVxMem =>
    rw [encode, decodeWord, fieldF_wordXK, fieldX_wordXK, fieldKK_wordXK]
    rfl
  | seReg | ldReg | orReg | andReg | xorReg | addReg | sub | shr | subn | shl | sneReg | drw =>
    rw [encode, decodeWord, fieldF_wordXYN, fieldX_wordXYN, fieldY_wordXYN, fieldN_wordXYN]
    rfl

theorem decodeBytes_bytesOfWord {w : Word} {i : Instr} (h : decodeWord w = .ok i) (rest : List Byte) :
    decodeBytes (bytesOfWord w ++ rest) = .ok (i, rest) := by
  rw [bytesOfWord, List.cons_append, List.cons_append, List.nil_append, decodeBytes, wordOfBytes_bytes, h]

theorem tableWord_toNat (w : Word) : tableWord 16 w.toNat = w := by
  rw [tableWord, Nat.mod_eq_of_lt w.isLt, BitVec.ofNat_toNat, BitVec.setWidth_eq]

/-- Settles O2: the bytes and the table word of an instruction carry the word that decodes to it. -/
theorem decodeEncodeRoundTrip : Obligations.DecodeEncodeRoundTrip := by
  intro i rest
  have hw := decodeWord_encode i
  refine ⟨hw, decodeBytes_bytesOfWord hw rest, ?table⟩
  case table =>
    rw [decodeTableWord, tableWord_toNat, ← List.append_nil (bytesOfWord (encode i)), decodeBytes_bytesOfWord hw]

/-- Settles O1: each word is evaluated. -/
theorem sampleWordsDecode : Obligations.SampleWordsDecode := by
  and_intros <;> rfl

/-! ### Decode failures (R88) -/

theorem decode0_error_iff (kk : Byte) : (∃ e, decode0 kk = .error e) ↔ kk.toNat ∉ [0xE0, 0xEE] := by
  unfold decode0
  split <;> simp_all

theorem decode8_error_iff (x y : Reg) (n : Nibble) :
    (∃ e, decode8 x y n = .error e) ↔ n.toNat ∈ [0x8, 0x9, 0xA, 0xB, 0xC, 0xD, 0xF] := by
  have hlt := n.isLt
  unfold decode8
  split
  case h_10 =>
    simp only [imp_false] at *
    simp only [Except.error.injEq, exists_eq', List.mem_cons, List.not_mem_nil, or_false, true_iff]
    omega
  all_goals simp_all

theorem decodeE_error_iff (x : Reg) (kk : Byte) : (∃ e, decodeE x kk = .error e) ↔ kk.toNat ∉ [0x9E, 0xA1] := by
  unfold decodeE
  split <;> simp_all

theorem decodeF_error_iff (x : Reg) (kk : Byte) :
    (∃ e, decodeF x kk = .error e) ↔
      kk.toNat ∉ [0x07, 0x0A, 0x15, 0x18, 0x1E, 0x29, 0x33, 0x55, 0x65] := by
  unfold decodeF
  split <;> simp_all

/-- A word whose family is none of the first fifteen is of family 0xF. -/
theorem toNat_fieldF_of_rest {w : Word} (h : ∀ k < 15, (fieldF w).toNat ≠ k) : (fieldF w).toNat = 15 := by
  have hlt := (fieldF w).isLt
  have hne := h (fieldF w).toNat
  omega

/-- Settles O4: four families dispatch further, and the other twelve decode whatever their fields are. -/
theorem decodeFailuresAreTheTabledWords : Obligations.DecodeFailuresAreTheTabledWords := by
  intro w
  rw [← toNat_fieldF w, ← toNat_fieldKK w, ← toNat_fieldN w]
  unfold decodeWord
  split
  case h_1 hf => simp [hf, decode0_error_iff]
  case h_9 hf => simp [hf, decode8_error_iff]
  case h_15 hf => simp [hf, decodeE_error_iff]
  case h_16 =>
    have hf : (fieldF w).toNat = 15 := toNat_fieldF_of_rest fun k hk => by interval_cases k <;> assumption
    simp [hf, decodeF_error_iff]
  all_goals simp [‹(fieldF w).toNat = _›]

/-! ### The encoder's word against the word that was decoded (R85) -/

theorem encode_of_decode0 {kk : Byte} {i : Instr} (h : decode0 kk = .ok i) : encode i = wordXK 0x0 0 kk := by
  unfold decode0 at h
  split at h <;> cases h
  all_goals rw [(BitVec.toNat_eq_nat.1 ‹kk.toNat = _›).2]; rfl

theorem encode_of_decode8 {x y : Reg} {n : Nibble} {i : Instr} (h : decode8 x y n = .ok i) :
    encode i = wordXYN 0x8 x y n := by
  unfold decode8 at h
  split at h <;> cases h
  all_goals rw [(BitVec.toNat_eq_nat.1 ‹n.toNat = _›).2]; rfl

theorem encode_of_decodeE {x : Reg} {kk : Byte} {i : Instr} (h : decodeE x kk = .ok i) :
    encode i = wordXK 0xE x kk := by
  unfold decodeE at h
  split at h <;> cases h
  all_goals rw [(BitVec.toNat_eq_nat.1 ‹kk.toNat = _›).2]; rfl

theorem encode_of_decodeF {x : Reg} {kk : Byte} {i : Instr} (h : decodeF x kk = .ok i) :
    encode i = wordXK 0xF x kk := by
  unfold decodeF at h
  split at h <;> cases h
  all_goals rw [(BitVec.toNat_eq_nat.1 ‹kk.toNat = _›).2]; rfl

/-! A word of family `f`, built again from its other fields, one lemma a format. -/

theorem wordA_of_family {w : Word} {f : Nibble} (hf : (fieldF w).toNat = f.toNat) : wordA f (fieldNNN w) = w := by
  rw [← BitVec.eq_of_toNat_eq hf, wordA_fields]

theorem wordXK_of_family {w : Word} {f : Nibble} (hf : (fieldF w).toNat = f.toNat) :
    wordXK f (fieldX w) (fieldKK w) = w := by
  rw [← BitVec.eq_of_toNat_eq hf, wordXK_fields]

theorem wordXYN_of_family {w : Word} {f : Nibble} (hf : (fieldF w).toNat = f.toNat) :
    wordXYN f (fieldX w) (fieldY w) (fieldN w) = w := by
  rw [← BitVec.eq_of_toNat_eq hf, wordXYN_fields]

theorem wordXK_zero_eq_iff {w : Word} {f : Nibble} (hf : (fieldF w).toNat = f.toNat) :
    wordXK f 0 (fieldKK w) = w ↔ fieldX w = 0 := by
  constructor
  · intro h
    rw [← h, fieldX_wordXK]
  · intro h
    rw [← h, wordXK_of_family hf]

theorem wordXYN_zero_eq_iff {w : Word} {f : Nibble} (hf : (fieldF w).toNat = f.toNat) :
    wordXYN f (fieldX w) (fieldY w) 0 = w ↔ fieldN w = 0 := by
  constructor
  · intro h
    rw [← h, fieldN_wordXYN]
  · intro h
    rw [← h, wordXYN_of_family hf]

theorem canonicalWord_of_family {w : Word} (h : (fieldF w).toNat ∉ [0x0, 0x5, 0x9]) : canonicalWord w = true := by
  unfold canonicalWord
  split <;> simp_all

/-- The word of a family without ignored bits is the encoder's own; in families 0x0, 0x5 and 0x9 it is when the field
that the encoder leaves 0 is 0. -/
theorem encode_eq_iff_canonicalWord {w : Word} {i : Instr} (h : decodeWord w = .ok i) :
    encode i = w ↔ canonicalWord w = true := by
  unfold decodeWord at h
  split at h
  case h_1 hf =>
    rw [encode_of_decode0 h, canonicalWord, hf]
    exact (wordXK_zero_eq_iff hf).trans beq_iff_eq.symm
  case h_6 hf | h_10 hf =>
    cases h
    rw [canonicalWord, hf]
    exact (wordXYN_zero_eq_iff hf).trans beq_iff_eq.symm
  case h_2 hf | h_3 hf | h_11 hf | h_12 hf =>
    cases h
    exact iff_of_true (wordA_of_family hf) (canonicalWord_of_family (by simp [hf]))
  case h_4 hf | h_5 hf | h_7 hf | h_8 hf | h_13 hf =>
    cases h
    exact iff_of_true (wordXK_of_family hf) (canonicalWord_of_family (by simp [hf]))
  case h_14 hf =>
    cases h
    exact iff_of_true (wordXYN_of_family hf) (canonicalWord_of_family (by simp [hf]))
  case h_9 hf =>
    exact iff_of_true ((encode_of_decode8 h).trans (wordXYN_of_family hf)) (canonicalWord_of_family (by simp [hf]))
  case h_15 hf =>
    exact iff_of_true ((encode_of_decodeE h).trans (wordXK_of_family hf)) (canonicalWord_of_family (by simp [hf]))
  case h_16 =>
    have hf : (fieldF w).toNat = 15 := toNat_fieldF_of_rest fun k hk => by interval_cases k <;> assumption
    exact iff_of_true ((encode_of_decodeF h).trans (wordXK_of_family hf)) (canonicalWord_of_family (by simp [hf]))

/-- Settles O5: the decoder reads no ignored bit, `SHR` and `SHL` no `y`, and the encoder leaves the ignored bits 0. -/
theorem ignoredBitsSelectNothing : Obligations.IgnoredBitsSelectNothing := by
  refine ⟨fun x => ?low, fun x y n => ?skips, fun _ _ _ _ => ⟨rfl, rfl⟩, fun _ _ => encode_eq_iff_canonicalWord⟩
  case low =>
    rw [decodeWord, decodeWord, fieldF_wordXK, fieldF_wordXK, fieldKK_wordXK, fieldKK_wordXK]
    exact ⟨rfl, rfl⟩
  case skips =>
    rw [decodeWord, decodeWord, fieldF_wordXYN, fieldF_wordXYN, fieldX_wordXYN, fieldX_wordXYN, fieldY_wordXYN,
      fieldY_wordXYN]
    exact ⟨rfl, rfl⟩

end Sys2Proof
end

section
/-! PROOFS of the family "other": what `exec` answers, said once for all 34 instructions. When the check an instruction
makes passes (`Allows`) it leaves the state `after`; when not, it raises one of its causes (`Raises`), or stops. -/

namespace Sys2Proof

open Machine

/-! ### What an instruction checks, may raise, and leaves when it completes -/

/-- The check that `exec` makes before it goes through with the instruction (R59, R121, R144 to R146, R152, R161). -/
def Allows (s : State) : Instr → Prop
  | .ret => s.sp.toNat + 2 ≤ s.params.stackTop ∧ s.sp.toNat + 2 ≤ s.params.memSize
  | .call _ => s.stackFull = false ∧ s.sp.toNat ≤ s.params.memSize
  | .addReg x _ | .sub x _ | .shr x _ | .subn x _ | .shl x _ => ¬ (s.params.vfOrder = .refuse ∧ x = vf)
  | .drw _ _ n => n = 0 ∨ s.i.toNat + n.toNat ≤ s.params.memSize
  | .skp x | .sknp x => regNat s x ≤ 15
  | .ldB _ => effAddr s 0 + 3 ≤ s.params.memSize
  | .ldMemVx x | .ldVxMem x => effAddr s 0 + (x.val + 1) ≤ s.params.memSize
  | _ => True

/-- The cause that an instruction can raise in its execute phase (R171). -/
def Raises : Instr → Cause → Prop
  | .call _, c => c = .stackLow
  | .ret, c => c = .stackHigh
  | .drw _ _ _, c | .ldB _, c | .ldMemVx _, c | .ldVxMem _, c => c = .dataRange
  | .skp _, c | .sknp _, c => c = .keyIndex
  | _, _ => False

/-- What `DRW` draws. -/
def drawnBy (s : State) (x y : Reg) (n : Nibble) : Drawing :=
  drawSprite s.fb (spriteCol x s) (spriteLine y s) (s.mem.readBytes s.i.toNat n.toNat)

/-- The state a completed instruction leaves. -/
def after (s : State) : Instr → State
  | .cls => (s.setFb Frame.clear).advance
  | .ret => (s.setSp (s.sp + 2)).setPc (s.mem.readWord s.sp.toNat)
  | .jp nnn => s.setPc (zext16 nnn)
  | .call nnn =>
    ((s.setMem (s.mem.writeBytes (s.sp.toNat - 2) (bytesOfWord (s.pc + 2)))).setSp (s.sp - 2)).setPc (zext16 nnn)
  | .seByte x kk => s.setPc (if s.reg x == kk then s.pc + 4 else s.pc + 2)
  | .sneByte x kk => s.setPc (if s.reg x != kk then s.pc + 4 else s.pc + 2)
  | .seReg x y => s.setPc (if s.reg x == s.reg y then s.pc + 4 else s.pc + 2)
  | .ldByte x kk => (s.setReg x kk).advance
  | .addByte x kk => (s.setReg x (s.reg x + kk)).advance
  | .ldReg x y => (s.setReg x (s.reg y)).advance
  | .orReg x y => (s.setReg x (s.reg x ||| s.reg y)).advance
  | .andReg x y => (s.setReg x (s.reg x &&& s.reg y)).advance
  | .xorReg x y => (s.setReg x (s.reg x ^^^ s.reg y)).advance
  | .addReg x y => (s.setResultFlag x (aluAdd (s.reg x) (s.reg y))).advance
  | .sub x y => (s.setResultFlag x (aluSub (s.reg x) (s.reg y))).advance
  | .shr x _ => (s.setResultFlag x (aluShr (s.reg x))).advance
  | .subn x y => (s.setResultFlag x (aluSub (s.reg y) (s.reg x))).advance
  | .shl x _ => (s.setResultFlag x (aluShl (s.reg x))).advance
  | .sneReg x y => s.setPc (if s.reg x != s.reg y then s.pc + 4 else s.pc + 2)
  | .ldI nnn => (s.setI (zext16 nnn)).advance
  | .jpV0 nnn => s.setPc (jumpV0Target nnn s)
  | .rnd x kk => (s.setReg x (s.rnd &&& kk)).advance
  | .drw x y n => ((s.setFb (drawnBy s x y n).fb).setReg vf (flagByte (drawnBy s x y n).collision)).advance
  | .skp x => s.setPc (if s.keys.getLsbD (regNat s x) then s.pc + 4 else s.pc + 2)
  | .sknp x => s.setPc (if !s.keys.getLsbD (regNat s x) then s.pc + 4 else s.pc + 2)
  | .ldVxDt x => (s.setReg x s.dt).advance
  | .ldVxK x =>
    match selectKey s with
    | none => s.setWaiting true
    | some k => ((s.setReg x (BitVec.ofNat 8 k)).setWaiting false).advance
  | .ldDtVx x => (s.setDt (s.reg x)).advance
  | .ldStVx x => (s.setSt (s.reg x)).advance
  | .addI x => (s.setI (indexPlusReg x s)).advance
  | .ldF x => (s.setI (glyphAddr (s.reg x))).advance
  | .ldB x => (s.setMem (s.mem.writeBytes (effAddr s 0) (bcdDigits (s.reg x)))).advance
  | .ldMemVx x => ((s.setMem (s.mem.writeBytes (effAddr s 0) (regGroup x s))).setI (indexPast x s)).advance
  | .ldVxMem x => ((loadRegs s 0 (s.mem.readBytes (effAddr s 0) (x.val + 1))).setI (indexPast x s)).advance

/-! ### `exec` of each instruction that checks something -/

theorem exec_call (nnn : Addr12) (s : State) :
    exec (.call nnn) s =
      if s.stackFull then .next (s.faulted .stackLow s.sp.toNat)
      else if s.sp.toNat ≤ s.params.memSize then .next (after s (.call nnn)) else .fault .stackOutsideMemory := by
  rw [exec, execCall, push_eq]
  rfl

theorem exec_ret (s : State) :
    exec .ret s =
      if s.sp.toNat + 2 ≤ s.params.stackTop then
        if s.sp.toNat + 2 ≤ s.params.memSize then .next (after s .ret) else .fault .stackOutsideMemory
      else .next (s.faulted .stackHigh s.sp.toNat) := by
  rw [exec, execRet, pop_eq]
  rfl

theorem exec_drw (x y : Reg) (n : Nibble) (s : State) :
    exec (.drw x y n) s =
      if n = 0 ∨ s.i.toNat + n.toNat ≤ s.params.memSize then .next (after s (.drw x y n))
      else .next (s.faulted .dataRange (max s.i.toNat s.params.memSize)) := by
  rw [exec, execDrw, spriteRows_eq]
  rfl

theorem exec_ldB (x : Reg) (s : State) :
    exec (.ldB x) s =
      if effAddr s 0 + 3 ≤ s.params.memSize then .next (after s (.ldB x))
      else .next (s.faulted .dataRange (max (effAddr s 0) s.params.memSize)) := by
  rw [exec, execLdB, memWrite_eq]
  rfl

theorem exec_ldMemVx (x : Reg) (s : State) :
    exec (.ldMemVx x) s =
      if effAddr s 0 + (x.val + 1) ≤ s.params.memSize then .next (after s (.ldMemVx x))
      else .next (s.faulted .dataRange (max (effAddr s 0) s.params.memSize)) := by
  rw [exec, execLdMemVx, memWrite_eq, length_regGroup]
  rfl

theorem exec_ldVxMem (x : Reg) (s : State) :
    exec (.ldVxMem x) s =
      if effAddr s 0 + (x.val + 1) ≤ s.params.memSize then .next (after s (.ldVxMem x))
      else .next (s.faulted .dataRange (max (effAddr s 0) s.params.memSize)) := by
  rw [exec, execLdVxMem, memRead_eq]
  rfl

theorem exec_skp (x : Reg) (s : State) :
    exec (.skp x) s =
      if regNat s x ≤ 15 then .next (after s (.skp x)) else .next (s.faulted .keyIndex (regNat s x)) := by
  rw [exec, execSkp, keyNumber_eq]
  rfl

theorem exec_sknp (x : Reg) (s : State) :
    exec (.sknp x) s =
      if regNat s x ≤ 15 then .next (after s (.sknp x)) else .next (s.faulted .keyIndex (regNat s x)) := by
  rw [exec, execSknp, keyNumber_eq]
  rfl

theorem exec_ldVxK (x : Reg) (s : State) : exec (.ldVxK x) s = .next (after s (.ldVxK x)) := by
  rw [exec, execLdVxK, after]
  cases selectKey s <;> rfl

/-! ### The two directions -/

/-- An instruction whose check passes completes. -/
theorem exec_of_allows {s : State} {i : Instr} (h : Allows s i) : exec i s = .next (after s i) := by
  cases i with
  | ret => exact (exec_ret s).trans ((if_pos h.1).trans (if_pos h.2))
  | call nnn =>
    obtain ⟨hroom, hmem⟩ := h
    rw [exec_call, hroom, if_neg Bool.false_ne_true, if_pos hmem]
  | addReg | sub | shr | subn | shl => exact (writeResultFlag_eq ..).trans (if_neg h)
  | drw x y n => exact (exec_drw x y n s).trans (if_pos h)
  | skp x => exact (exec_skp x s).trans (if_pos h)
  | sknp x => exact (exec_sknp x s).trans (if_pos h)
  | ldVxK x => exact exec_ldVxK x s
  | ldB x => exact (exec_ldB x s).trans (if_pos h)
  | ldMemVx x => exact (exec_ldMemVx x s).trans (if_pos h)
  | ldVxMem x => exact (exec_ldVxMem x s).trans (if_pos h)
  | _ => rfl

/-- What a next state can be: the completed instruction's, or the one in which its fault was raised. -/
def NextIs (i : Instr) (s t : State) : Prop :=
  (Allows s i ∧ t = after s i) ∨ ∃ c a, Raises i c ∧ t = s.faulted c a

theorem nextIs_of_check {i : Instr} {s t : State} {c : Cause} {a : Nat} {P : Prop} [Decidable P]
    (h : (if P then (.next (after s i) : Result) else .next (s.faulted c a)) = .next t)
    (hallows : P → Allows s i) (hraises : Raises i c) : NextIs i s t := by
  split at h
  next hp =>
    cases h
    exact .inl ⟨hallows hp, rfl⟩
  next =>
    cases h
    exact .inr ⟨c, a, hraises, rfl⟩

/-- The inversion of `exec`. -/
theorem nextIs_of_exec {i : Instr} {s t : State} (h : exec i s = .next t) : NextIs i s t := by
  cases i with
  | ret =>
    rw [exec_ret] at h
    split at h
    next htop =>
      split at h
      next hmem =>
        cases h
        exact .inl ⟨⟨htop, hmem⟩, rfl⟩
      next => cases h
    next =>
      cases h
      exact .inr ⟨_, _, rfl, rfl⟩
  | call nnn =>
    rw [exec_call] at h
    split at h
    next =>
      cases h
      exact .inr ⟨_, _, rfl, rfl⟩
    next hroom =>
      split at h
      next hmem =>
        cases h
        exact .inl ⟨⟨Bool.eq_false_iff.2 hroom, hmem⟩, rfl⟩
      next => cases h
  | addReg | sub | shr | subn | shl =>
    have h := (writeResultFlag_eq ..).symm.trans h
    split at h
    next => cases h
    next hallowed =>
      cases h
      exact .inl ⟨hallowed, rfl⟩
  | drw x y n => exact nextIs_of_check ((exec_drw x y n s).symm.trans h) id rfl
  | skp x => exact nextIs_of_check ((exec_skp x s).symm.trans h) id rfl
  | sknp x => exact nextIs_of_check ((exec_sknp x s).symm.trans h) id rfl
  | ldB x => exact nextIs_of_check ((exec_ldB x s).symm.trans h) id rfl
  | ldMemVx x => exact nextIs_of_check ((exec_ldMemVx x s).symm.trans h) id rfl
  | ldVxMem x => exact nextIs_of_check ((exec_ldVxMem x s).symm.trans h) id rfl
  | _ => exact .inl ⟨trivial, Host.Outcome.next.inj (h.symm.trans (exec_of_allows trivial))⟩

end Sys2Proof
end

section
/-! PROOFS of the family "other", the execute phase: O13 (which instructions fault, R171), O14 (what their faults
record, R170), O20 (where `exec` answers no next state), O45 (who writes what, R25 to R28, R50, R150, R163), O25 (who writes
`VF`, R22), O47 (an even `PC`, R24) and O46 (what instructions do not read). -/

namespace Sys2Proof

open Machine

/-! ### What no instruction writes -/

/-- The inputs of the environment and the parameters are the same. -/
structure SameInputs (s t : State) : Prop where
  keys : t.keys = s.keys
  rnd : t.rnd = s.rnd
  script : t.script = s.script
  draws : t.draws = s.draws
  params : t.params = s.params

/-- The fault record is the same. -/
structure SameRecord (s t : State) : Prop where
  fault : t.fault = s.fault
  faultCause : t.faultCause = s.faultCause
  faultAddr : t.faultAddr = s.faultAddr
  faultPc : t.faultPc = s.faultPc

/-- `LD Vx, [I]` writes registers, `I` and `PC`. -/
theorem after_ldVxMem (s : State) (x : Reg) :
    ∃ v, after s (.ldVxMem x) = (({ s with v := v } : State).setI (indexPast x s)).advance := by
  obtain ⟨v, hv⟩ := loadRegs_eq s 0 (s.mem.readBytes (effAddr s 0) (x.val + 1))
  exact ⟨v, by rw [after, hv]⟩

/-- `LD Vx, K` writes `waiting` alone, or a register, `waiting` and `PC`. -/
theorem after_ldVxK (s : State) (x : Reg) :
    after s (.ldVxK x) = s.setWaiting true ∨
      ∃ b, after s (.ldVxK x) = ((s.setReg x b).setWaiting false).advance := by
  rw [after]
  split
  · exact .inl rfl
  · exact .inr ⟨_, rfl⟩

/-- A function of the state that `LD Vx, [I]` does not change. -/
theorem apply_after_ldVxMem {α : Type} {s : State} (f : State → α) (x : Reg)
    (h : ∀ v, f (({ s with v := v } : State).setI (indexPast x s)).advance = f s) : f (after s (.ldVxMem x)) = f s := by
  obtain ⟨v, hv⟩ := after_ldVxMem s x
  rw [hv, h]

/-- A function of the state that `LD Vx, K` does not change, whether it waits or takes a key. -/
theorem apply_after_ldVxK {α : Type} {s : State} (f : State → α) (x : Reg) (hwait : f (s.setWaiting true) = f s)
    (htake : ∀ b, f ((s.setReg x b).setWaiting false).advance = f s) : f (after s (.ldVxK x)) = f s := by
  obtain h | ⟨b, h⟩ := after_ldVxK s x
  · rw [h, hwait]
  · rw [h, htake]

/-- The parts that instructions write; every other part of the state stays. -/
theorem after_eq (s : State) (i : Instr) :
    ∃ v idx pc sp dt st mem fb w, after s i =
      { s with v := v, i := idx, pc := pc, sp := sp, dt := dt, st := st, mem := mem, fb := fb, waiting := w } := by
  cases i with
  | ldVxK x =>
    obtain h | ⟨b, h⟩ := after_ldVxK s x <;> exact ⟨_, _, _, _, _, _, _, _, _, h⟩
  | ldVxMem x =>
    obtain ⟨v, h⟩ := after_ldVxMem s x
    exact ⟨_, _, _, _, _, _, _, _, _, h⟩
  | _ => exact ⟨_, _, _, _, _, _, _, _, _, rfl⟩

theorem after_sameInputs (s : State) (i : Instr) : SameInputs s (after s i) := by
  obtain ⟨v, idx, pc, sp, dt, st, mem, fb, w, h⟩ := after_eq s i
  rw [h]
  constructor <;> rfl

theorem after_sameRecord (s : State) (i : Instr) : SameRecord s (after s i) := by
  obtain ⟨v, idx, pc, sp, dt, st, mem, fb, w, h⟩ := after_eq s i
  rw [h]
  constructor <;> rfl

theorem after_decodeFail_trace (s : State) (i : Instr) :
    (after s i).decodeFail = s.decodeFail ∧ (after s i).trace = s.trace := by
  obtain ⟨v, idx, pc, sp, dt, st, mem, fb, w, h⟩ := after_eq s i
  rw [h]
  exact ⟨rfl, rfl⟩

theorem exec_sameInputs {i : Instr} {s t : State} (h : exec i s = .next t) : SameInputs s t := by
  obtain ⟨-, rfl⟩ | ⟨c, a, -, rfl⟩ := nextIs_of_exec h
  · exact after_sameInputs s i
  · constructor <;> rfl

/-! ### Faults of the execute phase -/

/-- Settles O13: a running core's completed instruction leaves it running, so the fault was raised, with the one cause
of the instruction. -/
theorem onlyTheListedInstructionsFault : Obligations.OnlyTheListedInstructionsFault := by
  intro i s t hrun h ht
  obtain ⟨-, rfl⟩ | ⟨c, a, hc, rfl⟩ := nextIs_of_exec h
  · rw [(after_sameRecord s i).fault, hrun] at ht
    cases ht
  · cases i with
    | call | ret | drw | ldB | ldMemVx | ldVxMem | skp | sknp =>
      cases hc
      rfl
    | _ => exact hc

/-- The fault-entry rule (R172), for an address that the 17-bit record can hold. -/
theorem records_faulted (s : State) (c : Cause) {a : Nat} (ha : a < 2 ^ 17) :
    Records (.next (s.faulted c a)) s c.code.toNat a :=
  ⟨_, rfl, rfl, rfl, Nat.mod_eq_of_lt ha, rfl, rfl, keeps_faulted s c a⟩

/-- The lowest address outside memory of an access near `I` fits the record. -/
theorem max_index_lt {s : State} {n : Nat} (hn : n ≤ 2 ^ 16) (h : s.params.memSize ≤ s.i.toNat + n) :
    max s.i.toNat s.params.memSize < 2 ^ 17 := by
  have hi := s.i.isLt
  omega

theorem records_call {s : State} (nnn : Addr12) (h : s.stackFull = true) :
    Records (exec (.call nnn) s) s 3 s.sp.toNat := by
  rw [exec_call, if_pos h]
  exact records_faulted s .stackLow (by have := s.sp.isLt; omega)

theorem records_ldB {s : State} (x : Reg) (h : s.params.memSize ≤ effAddr s 2) :
    Records (exec (.ldB x) s) s 2 (max (effAddr s 0) s.params.memSize) := by
  unfold effAddr at h
  rw [exec_ldB, if_neg (by unfold effAddr; omega)]
  exact records_faulted s .dataRange (max_index_lt (by omega) h)

theorem records_ldMemVx {s : State} {x : Reg} (h : s.params.memSize ≤ effAddr s x.val) :
    Records (exec (.ldMemVx x) s) s 2 (max (effAddr s 0) s.params.memSize) := by
  unfold effAddr at h
  rw [exec_ldMemVx, if_neg (by unfold effAddr; omega)]
  exact records_faulted s .dataRange (max_index_lt (by omega) h)

theorem records_ldVxMem {s : State} {x : Reg} (h : s.params.memSize ≤ effAddr s x.val) :
    Records (exec (.ldVxMem x) s) s 2 (max (effAddr s 0) s.params.memSize) := by
  unfold effAddr at h
  rw [exec_ldVxMem, if_neg (by unfold effAddr; omega)]
  exact records_faulted s .dataRange (max_index_lt (by omega) h)

theorem records_drw {s : State} (x y : Reg) {n : Nibble} (hn : n ≠ 0) (h : s.params.memSize < s.i.toNat + n.toNat) :
    Records (exec (.drw x y n) s) s 2 (max (effAddr s 0) s.params.memSize) := by
  have hlt := n.isLt
  rw [exec_drw, if_neg (not_or_intro hn (by omega))]
  exact records_faulted s .dataRange (max_index_lt (n := n.toNat) (by omega) (by omega))

/-- Settles O14: in each listed case the check of the instruction fails, and the fault is raised. -/
theorem executePhaseFaultsAreRecorded : Obligations.ExecutePhaseFaultsAreRecorded := by
  intro s
  have hreg : ∀ x, regNat s x < 2 ^ 17 := fun x => by
    have := (s.reg x).isLt
    unfold regNat
    omega
  refine ⟨fun nnn hsp => records_call nnn (State.stackFull_eq_true.2 (.inl hsp)),
    fun nnn limit hl hfull => records_call nnn (State.stackFull_eq_true.2 (.inr ⟨limit, hl, hfull⟩)), fun htop => ?ret,
    fun x y n hn h => records_drw x y hn h, fun x h => records_ldB x h, fun x h => records_ldMemVx h,
    fun x h => records_ldVxMem h, fun x hx => ?skp, fun x hx => ?sknp⟩
  case ret =>
    rw [exec_ret, if_neg (by omega)]
    exact records_faulted s .stackHigh (by have := s.sp.isLt; omega)
  case skp =>
    rw [exec_skp, if_neg (by omega)]
    exact records_faulted s .keyIndex (hreg x)
  case sknp =>
    rw [exec_sknp, if_neg (by omega)]
    exact records_faulted s .keyIndex (hreg x)

/-! ### Where `exec` answers no next state -/

theorem exec_flagWriter_of_refuse {i : Instr} {s : State} (hvf : s.params.vfOrder = .refuse) {y : Reg}
    (hi : i ∈ [.addReg vf y, .sub vf y, .shr vf y, .subn vf y, .shl vf y]) :
    exec i s = .refused .flagRegisterDestination := by
  simp only [List.mem_cons, List.not_mem_nil, or_false] at hi
  rcases hi with rfl | rfl | rfl | rfl | rfl <;> exact (writeResultFlag_eq ..).trans (if_pos ⟨hvf, rfl⟩)

/-- A push has room exactly when the stack is not full (R59). -/
theorem stackFull_eq_false {s : State} (h2 : 2 ≤ s.sp.toNat)
    (hl : ∀ limit, s.params.stackLimit = some limit → s.stackEntries < limit) : s.stackFull = false := by
  refine Bool.eq_false_iff.2 fun hfull => ?_
  obtain hlow | ⟨limit, hlim, hle⟩ := State.stackFull_eq_true.1 hfull
  · omega
  · exact absurd (hl limit hlim) (by omega)

/-- An instruction that answers no next state fails its check, and does not raise. -/
theorem stop_cases {i : Instr} {s : State} (h : ∀ t, exec i s ≠ .next t) :
    (∃ nnn, i = .call nnn ∧ s.params.memSize < s.sp.toNat) ∨
      (i = .ret ∧ s.params.memSize < s.sp.toNat + 2 ∧ s.sp.toNat + 2 ≤ s.params.stackTop) ∨
      (s.params.vfOrder = .refuse ∧ ∃ y, i ∈ [.addReg vf y, .sub vf y, .shr vf y, .subn vf y, .shl vf y]) := by
  have hno : ¬ Allows s i := fun ha => h _ (exec_of_allows ha)
  cases i with
  | call nnn =>
    rw [exec_call] at h
    split at h
    next => exact absurd rfl (h _)
    next hroom => exact .inl ⟨nnn, rfl, Nat.lt_of_not_le fun hmem => hno ⟨Bool.eq_false_iff.2 hroom, hmem⟩⟩
  | ret =>
    rw [exec_ret] at h
    split at h
    next htop => exact .inr (.inl ⟨rfl, Nat.lt_of_not_le fun hmem => hno ⟨htop, hmem⟩, htop⟩)
    next => exact absurd rfl (h _)
  | addReg x y | sub x y | shr x y | subn x y | shl x y =>
    obtain ⟨hvf, rfl⟩ := not_not.1 hno
    exact .inr (.inr ⟨hvf, y, by simp⟩)
  | drw x y n => exact absurd ((exec_drw x y n s).trans (if_neg hno)) (h _)
  | skp x => exact absurd ((exec_skp x s).trans (if_neg hno)) (h _)
  | sknp x => exact absurd ((exec_sknp x s).trans (if_neg hno)) (h _)
  | ldB x => exact absurd ((exec_ldB x s).trans (if_neg hno)) (h _)
  | ldMemVx x => exact absurd ((exec_ldMemVx x s).trans (if_neg hno)) (h _)
  | ldVxMem x => exact absurd ((exec_ldVxMem x s).trans (if_neg hno)) (h _)
  | _ => exact absurd trivial hno

/-- Settles O20: the two stack accesses outside memory stop, the refused destination is refused, nothing else stops. -/
theorem onlyTheListedCasesStop : Obligations.OnlyTheListedCasesStop := by
  intro i s
  refine ⟨?call, ?ret, fun hvf y hi => exec_flagWriter_of_refuse hvf hi, stop_cases⟩
  case call =>
    rintro nnn rfl h2 hmem hl
    rw [exec_call, stackFull_eq_false h2 hl, if_neg Bool.false_ne_true, if_neg (by omega)]
  case ret =>
    rintro rfl htop hmem
    rw [exec_ret, if_pos htop, if_neg (by omega)]

/-! ### Who writes each part -/

section Writers

variable {s : State} {i : Instr}

theorem writer_of_i_ne (h : (after s i).i ≠ s.i) :
    (∃ nnn, i = .ldI nnn) ∨ (∃ x, i = .addI x) ∨ (∃ x, i = .ldF x) ∨ (∃ x, i = .ldMemVx x) ∨ ∃ x, i = .ldVxMem x := by
  cases i with
  | ldI nnn => exact .inl ⟨nnn, rfl⟩
  | addI x => exact .inr (.inl ⟨x, rfl⟩)
  | ldF x => exact .inr (.inr (.inl ⟨x, rfl⟩))
  | ldMemVx x => exact .inr (.inr (.inr (.inl ⟨x, rfl⟩)))
  | ldVxMem x => exact .inr (.inr (.inr (.inr ⟨x, rfl⟩)))
  | ldVxK x => exact absurd (apply_after_ldVxK State.i x rfl fun _ => rfl) h
  | _ => exact absurd rfl h

theorem writer_of_sp_ne (h : (after s i).sp ≠ s.sp) : i = .ret ∨ ∃ nnn, i = .call nnn := by
  cases i with
  | ret => exact .inl rfl
  | call nnn => exact .inr ⟨nnn, rfl⟩
  | ldVxK x => exact absurd (apply_after_ldVxK State.sp x rfl fun _ => rfl) h
  | ldVxMem x => exact absurd (apply_after_ldVxMem State.sp x fun _ => rfl) h
  | _ => exact absurd rfl h

theorem writer_of_dt_ne (h : (after s i).dt ≠ s.dt) : ∃ x, i = .ldDtVx x := by
  cases i with
  | ldDtVx x => exact ⟨x, rfl⟩
  | ldVxK x => exact absurd (apply_after_ldVxK State.dt x rfl fun _ => rfl) h
  | ldVxMem x => exact absurd (apply_after_ldVxMem State.dt x fun _ => rfl) h
  | _ => exact absurd rfl h

theorem writer_of_st_ne (h : (after s i).st ≠ s.st) : ∃ x, i = .ldStVx x := by
  cases i with
  | ldStVx x => exact ⟨x, rfl⟩
  | ldVxK x => exact absurd (apply_after_ldVxK State.st x rfl fun _ => rfl) h
  | ldVxMem x => exact absurd (apply_after_ldVxMem State.st x fun _ => rfl) h
  | _ => exact absurd rfl h

theorem writer_of_mem_ne (h : (after s i).mem ≠ s.mem) :
    (∃ nnn, i = .call nnn) ∨ (∃ x, i = .ldB x) ∨ ∃ x, i = .ldMemVx x := by
  cases i with
  | call nnn => exact .inl ⟨nnn, rfl⟩
  | ldB x => exact .inr (.inl ⟨x, rfl⟩)
  | ldMemVx x => exact .inr (.inr ⟨x, rfl⟩)
  | ldVxK x => exact absurd (apply_after_ldVxK State.mem x rfl fun _ => rfl) h
  | ldVxMem x => exact absurd (apply_after_ldVxMem State.mem x fun _ => rfl) h
  | _ => exact absurd rfl h

theorem writer_of_fb_ne (h : (after s i).fb ≠ s.fb) : i = .cls ∨ ∃ x y n, i = .drw x y n := by
  cases i with
  | cls => exact .inl rfl
  | drw x y n => exact .inr ⟨x, y, n, rfl⟩
  | ldVxK x => exact absurd (apply_after_ldVxK State.fb x rfl fun _ => rfl) h
  | ldVxMem x => exact absurd (apply_after_ldVxMem State.fb x fun _ => rfl) h
  | _ => exact absurd rfl h

theorem writer_of_waiting_ne (h : (after s i).waiting ≠ s.waiting) : ∃ x, i = .ldVxK x := by
  cases i with
  | ldVxK x => exact ⟨x, rfl⟩
  | ldVxMem x => exact absurd (apply_after_ldVxMem State.waiting x fun _ => rfl) h
  | _ => exact absurd rfl h

end Writers

/-- Settles O45: a completed instruction writes what its rule names, and a raised fault writes the record alone. -/
theorem onlyTheNamedInstructionsWriteEachPart : Obligations.OnlyTheNamedInstructionsWriteEachPart := by
  intro i s t h
  obtain ⟨hkeys, hrnd, hscript, hdraws, hparams⟩ := exec_sameInputs h
  obtain ⟨-, rfl⟩ | ⟨c, a, -, rfl⟩ := nextIs_of_exec h
  · obtain ⟨hfail, htrace⟩ := after_decodeFail_trace s i
    exact ⟨writer_of_i_ne, writer_of_sp_ne, writer_of_dt_ne, writer_of_st_ne, writer_of_mem_ne, writer_of_fb_ne,
      writer_of_waiting_ne, hfail, htrace, hkeys, hrnd, hscript, hdraws, hparams⟩
  · exact ⟨absurd rfl, absurd rfl, absurd rfl, absurd rfl, absurd rfl, absurd rfl, absurd rfl, rfl, rfl, hkeys, hrnd,
      hscript, hdraws, hparams⟩

/-! ### Who writes `VF` -/

theorem flagByte_zero_or_one (b : Bool) : flagByte b = 0 ∨ flagByte b = 1 := by
  cases b
  · exact .inl rfl
  · exact .inr rfl

/-- The flag is written last, so it is what `VF` holds (R121, decision D13). -/
theorem setResultFlag_reg_vf (s : State) (x : Reg) (o : AluOut) : (s.setResultFlag x o).reg vf = flagByte o.flag :=
  State.setReg_reg_self _ vf _

theorem eq_vf_of_reg_vf_ne {s : State} {x : Reg} {b : Byte} (h : (s.setReg x b).reg vf ≠ s.reg vf) : x = vf := by
  by_contra hne
  exact h (s.setReg_reg_ne b (Ne.symm hne))

/-- A register group reaches `VF` only if its last register is `VF`. -/
theorem eq_vf_of_loadRegs_vf_ne {s : State} {x : Reg} {bs : List Byte} (hlen : bs.length = x.val + 1)
    (h : (loadRegs s 0 bs).reg vf ≠ s.reg vf) : x = vf := by
  rw [loadRegs_reg] at h
  split at h
  next hin =>
    have hx := x.isLt
    have hvf : vf.val = 15 := rfl
    exact Fin.ext (by omega)
  next => exact absurd rfl h

/-- Settles O25: the flag writers leave a flag byte, the writers of a named register write `VF` only if it is the one
named, and no other instruction writes a register. -/
theorem vfChangesOnlyByFlagWritersOrAsDestination : Obligations.VfChangesOnlyByFlagWritersOrAsDestination := by
  intro i s t h hne
  obtain ⟨-, rfl⟩ | ⟨c, a, -, rfl⟩ := nextIs_of_exec h
  case inr => exact absurd rfl hne
  case inl =>
    cases i with
    | addReg | sub | shr | subn | shl =>
      rw [after, State.advance_reg, setResultFlag_reg_vf]
      exact flagByte_zero_or_one _
    | drw =>
      rw [after, State.advance_reg, State.setReg_reg_self]
      exact flagByte_zero_or_one _
    | ldByte | addByte | ldReg | orReg | andReg | xorReg | rnd | ldVxDt => exact eq_vf_of_reg_vf_ne hne
    | ldVxK x =>
      obtain hk | ⟨b, hk⟩ := after_ldVxK s x <;> rw [hk] at hne
      · exact absurd rfl hne
      · exact eq_vf_of_reg_vf_ne (b := b) hne
    | ldVxMem x => exact eq_vf_of_loadRegs_vf_ne (Memory.length_readBytes ..) hne
    | _ => exact absurd rfl hne

/-! ### An even `PC` -/

theorem even_add {w k : Word} (hw : w.toNat % 2 = 0) (hk : k.toNat % 2 = 0) : (w + k).toNat % 2 = 0 := by
  rw [BitVec.toNat_add]
  omega

theorem even_skip {w : Word} (b : Bool) (hw : w.toNat % 2 = 0) :
    (if b then w + 4 else w + 2).toNat % 2 = 0 := by
  split <;> exact even_add hw rfl

/-- Settles O47: `PC` goes to a target that is even by hypothesis, or an even distance further, or nowhere. -/
theorem evenTargetsKeepPcEven : Obligations.EvenTargetsKeepPcEven := by
  intro i s t h heven htarget
  obtain ⟨-, rfl⟩ | ⟨c, a, -, rfl⟩ := nextIs_of_exec h
  case inr => exact heven
  case inl =>
    cases i with
    | jp | call =>
      rw [after, State.setPc_pc, toNat_zext16]
      exact htarget
    | jpV0 =>
      rw [after, State.setPc_pc, toNat_jumpV0Target]
      simp only at htarget
      omega
    | ret =>
      rw [after, State.setPc_pc, toNat_readWord]
      simp only at htarget
      omega
    | seByte | sneByte | seReg | sneReg | skp | sknp => exact even_skip _ heven
    | ldVxK x =>
      obtain hk | ⟨b, hk⟩ := after_ldVxK s x <;> rw [hk]
      · exact heven
      · exact even_add heven rfl
    | ldVxMem x =>
      obtain ⟨v, hv⟩ := after_ldVxMem s x
      rw [hv]
      exact even_add heven rfl
    | _ => exact even_add heven rfl

end Sys2Proof
end

section
/-! PROOFS of the family "other", noninterference: O46 (elements that an instruction does not read, R28, R31 to R33,
R150). -/

namespace Sys2Proof

open Machine

/-- Other values of the keypad, the random byte, the framebuffer and `ST`: each changed by a function, the identity
where the element stays. -/
structure Change where
  keys : BitVec 16 → BitVec 16
  rnd : Byte → Byte
  fb : Frame → Frame
  st : Byte → Byte

/-- The state with these elements changed. -/
def Change.apply (d : Change) (s : State) : State :=
  { s with keys := d.keys s.keys, rnd := d.rnd s.rnd, fb := d.fb s.fb, st := d.st s.st }

/-- The change leaves alone what the instruction reads or writes of the four elements. -/
def Change.Misses (d : Change) : Instr → Prop
  | .rnd _ _ => d.rnd = id
  | .skp _ | .sknp _ | .ldVxK _ => d.keys = id
  | .cls | .drw _ _ _ => d.fb = id
  | .ldStVx _ => d.st = id
  | _ => True

theorem Change.loadRegs_apply (d : Change) (s : State) (k : Nat) (bs : List Byte) :
    loadRegs (d.apply s) k bs = d.apply (loadRegs s k bs) := by
  induction bs generalizing s k with
  | nil => rfl
  | cons b bs ih =>
    unfold loadRegs
    split
    · exact ih (s.setReg _ b) (k + 1)
    · exact ih s (k + 1)

/-- The completed instruction commutes with a change that misses it. -/
theorem Change.after_apply {d : Change} {i : Instr} (h : d.Misses i) (s : State) :
    after (d.apply s) i = d.apply (after s i) := by
  obtain ⟨keys, rnd, fb, st⟩ := d
  cases i with
  | rnd | skp | sknp | cls | drw | ldStVx =>
    cases h
    rfl
  | ldVxK x =>
    have hselect : selectKey (Change.apply ⟨keys, rnd, fb, st⟩ s) = selectKey s := by
      cases h
      rfl
    rw [after, after, hselect]
    cases selectKey s <;> rfl
  | ldVxMem x =>
    rw [after, Change.loadRegs_apply]
    rfl
  | _ => rfl

theorem andThen_ite (P : Prop) [Decidable P] (a b : Result) (k : State → Result) :
    andThen (if P then a else b) k = if P then andThen a k else andThen b k := by
  split <;> rfl

theorem Change.writeResultFlag_apply (d : Change) (x : Reg) (o : AluOut) (s : State) :
    writeResultFlag x o (d.apply s) = andThen (writeResultFlag x o s) fun t => .next (d.apply t) := by
  rw [writeResultFlag_eq, writeResultFlag_eq, andThen_ite]
  rfl

/-- An instruction that the change misses does the same to the changed state, and the change stays: what it checks, what
it raises and what it completes to do not depend on the change. -/
theorem Change.exec_apply {d : Change} {i : Instr} (h : d.Misses i) (s : State) :
    exec i (d.apply s) = andThen (exec i s) fun t => .next (d.apply t) := by
  have hafter := Change.after_apply h s
  cases i with
  | call =>
    rw [exec_call, exec_call, andThen_ite, andThen_ite, hafter]
    rfl
  | ret =>
    rw [exec_ret, exec_ret, andThen_ite, andThen_ite, hafter]
    rfl
  | addReg | sub | shr | subn | shl => exact d.writeResultFlag_apply _ _ s
  | drw =>
    rw [exec_drw, exec_drw, andThen_ite, hafter]
    rfl
  | skp =>
    rw [exec_skp, exec_skp, andThen_ite, hafter]
    rfl
  | sknp =>
    rw [exec_sknp, exec_sknp, andThen_ite, hafter]
    rfl
  | ldB =>
    rw [exec_ldB, exec_ldB, andThen_ite, hafter]
    rfl
  | ldMemVx =>
    rw [exec_ldMemVx, exec_ldMemVx, andThen_ite, hafter]
    rfl
  | ldVxMem =>
    rw [exec_ldVxMem, exec_ldVxMem, andThen_ite, hafter]
    rfl
  | ldVxK x => rw [exec_ldVxK, exec_ldVxK, andThen_of_next, hafter]
  | _ => exact congrArg Host.Outcome.next hafter

/-! ### One element changed -/

/-- Another random byte. -/
def Change.ofRnd (b : Byte) : Change := ⟨id, fun _ => b, id, id⟩

/-- Another keypad. -/
def Change.ofKeys (k : BitVec 16) : Change := ⟨fun _ => k, id, id, id⟩

/-- Another framebuffer. -/
def Change.ofFb (f : Frame) : Change := ⟨id, id, fun _ => f, id⟩

/-- Another `ST`. -/
def Change.ofSt (b : Byte) : Change := ⟨id, id, id, fun _ => b⟩

/-- Settles O46: each clause changes one element, which misses every instruction that neither reads nor writes it. -/
theorem unreadElementsDoNotMatter : Obligations.UnreadElementsDoNotMatter := by
  intro i s
  refine ⟨fun hi b => ?rnd, fun hi k => ?keys, fun hcls hdrw f => ?fb, ?cls, fun hi b => ?st, ?ldSt⟩
  case rnd =>
    have hmiss : (Change.ofRnd b).Misses i := by
      cases i with
      | rnd x kk => exact absurd rfl (hi x kk)
      | skp | sknp | ldVxK | cls | drw | ldStVx => rfl
      | _ => trivial
    exact Change.exec_apply hmiss s
  case keys =>
    have hmiss : (Change.ofKeys k).Misses i := by
      cases i with
      | skp x => exact absurd rfl (hi x).1
      | sknp x => exact absurd rfl (hi x).2.1
      | ldVxK x => exact absurd rfl (hi x).2.2
      | rnd | cls | drw | ldStVx => rfl
      | _ => trivial
    exact Change.exec_apply hmiss s
  case fb =>
    have hmiss : (Change.ofFb f).Misses i := by
      cases i with
      | cls => exact absurd rfl hcls
      | drw x y n => exact absurd rfl (hdrw x y n)
      | rnd | skp | sknp | ldVxK | ldStVx => rfl
      | _ => trivial
    exact Change.exec_apply hmiss s
  case cls =>
    rintro rfl f
    rfl
  case st =>
    have hmiss : (Change.ofSt b).Misses i := by
      cases i with
      | ldStVx x => exact absurd rfl (hi x)
      | rnd | skp | sknp | ldVxK | cls | drw => rfl
      | _ => trivial
    exact Change.exec_apply hmiss s
  case ldSt =>
    rintro x rfl b
    rfl

end Sys2Proof
end

section
/-! PROOFS of the family "other", the step: O7, O9, O10 and O11 (the event Step, R80, R88, R170, R175), O8 (a placed
word), O48 (a finished program, R204), O15 (a stopped core, R174, R175), O38 (the delay timer, R212), O40 (the gap) and
O43 (the parameters, R35). -/

namespace Sys2Proof

open Machine

/-! ### The event Step, one equation a branch -/

/-- The word at `PC`. -/
def wordAtPc (s : State) : Word := s.mem.readWord s.pc.toNat

theorem coreStep_of_stopped {s : State} (h : s.fault = true) : coreStep s = .next s.quiet := by
  rw [coreStep, if_pos h]

theorem coreStep_of_outside {s : State} (h : s.fault = false) (hpc : s.params.memSize < s.pc.toNat + 2) :
    coreStep s = .next (s.quiet.faulted .fetchRange (max s.pc.toNat s.params.memSize)) := by
  rw [coreStep, if_neg (by simp [h]), firstOutOfRange_eq_some.2 ⟨hpc, rfl⟩]
  rfl

theorem coreStep_of_inside {s : State} (h : s.fault = false) (hpc : s.pc.toNat + 2 ≤ s.params.memSize) :
    coreStep s = runWord (wordAtPc s) s := by
  rw [coreStep, if_neg (by simp [h]), firstOutOfRange_eq_none.2 hpc]
  rfl

theorem runWord_of_ok {op : Word} {i : Instr} (h : decodeWord op = .ok i) (s : State) :
    runWord op s = exec i (s.fetched op) := by
  rw [runWord, h]

theorem runWord_of_error {op : Word} {e : DecodeReject} (h : decodeWord op = .error e) (s : State) :
    runWord op s = .next (decodeFailure (s.fetched op)) := by
  rw [runWord, h]

/-- The inversion of the event Step: a stopped core, a fetch outside memory, a decode failure or an instruction. -/
theorem coreStep_next_cases {s t : State} (h : coreStep s = .next t) :
    (s.fault = true ∧ t = s.quiet) ∨
      (s.fault = false ∧ ∃ a, t = s.quiet.faulted .fetchRange a) ∨
      (s.fault = false ∧ t = decodeFailure (s.fetched (wordAtPc s))) ∨
      (s.fault = false ∧ ∃ i, decodeWord (wordAtPc s) = .ok i ∧ exec i (s.fetched (wordAtPc s)) = .next t) := by
  cases hf : s.fault with
  | true =>
    rw [coreStep_of_stopped hf] at h
    cases h
    exact .inl ⟨rfl, rfl⟩
  | false =>
    right
    rcases Nat.lt_or_ge s.params.memSize (s.pc.toNat + 2) with hpc | hpc
    · rw [coreStep_of_outside hf hpc] at h
      cases h
      exact .inl ⟨rfl, _, rfl⟩
    · rw [coreStep_of_inside hf hpc] at h
      cases hd : decodeWord (wordAtPc s) with
      | error e =>
        rw [runWord_of_error hd] at h
        cases h
        exact .inr (.inl ⟨rfl, rfl⟩)
      | ok i =>
        rw [runWord_of_ok hd] at h
        exact .inr (.inr ⟨rfl, i, rfl, h⟩)

theorem SameInputs.trans {s t u : State} (hst : SameInputs s t) (htu : SameInputs t u) : SameInputs s u :=
  ⟨htu.keys.trans hst.keys, htu.rnd.trans hst.rnd, htu.script.trans hst.script, htu.draws.trans hst.draws,
    htu.params.trans hst.params⟩

theorem fetched_sameInputs (s : State) (op : Word) : SameInputs s (s.fetched op) :=
  ⟨s.fetched_keys op, s.fetched_rnd op, s.fetched_script op, s.fetched_draws op, s.fetched_params op⟩

theorem quiet_sameInputs (s : State) : SameInputs s s.quiet :=
  ⟨s.quiet_keys, s.quiet_rnd, s.quiet_script, s.quiet_draws, s.quiet_params⟩

theorem faulted_sameInputs (s : State) (c : Cause) (a : Nat) : SameInputs s (s.faulted c a) := by
  constructor <;> rfl

theorem decodeFailure_sameInputs (s : State) : SameInputs s (decodeFailure s) := by
  constructor <;> rfl

theorem coreStep_sameInputs {s c : State} (h : coreStep s = .next c) : SameInputs s c := by
  obtain ⟨-, rfl⟩ | ⟨-, a, rfl⟩ | ⟨-, rfl⟩ | ⟨-, i, -, hexec⟩ := coreStep_next_cases h
  · exact quiet_sameInputs s
  · exact (quiet_sameInputs s).trans (faulted_sameInputs _ _ _)
  · exact (fetched_sameInputs s _).trans (decodeFailure_sameInputs _)
  · exact (fetched_sameInputs s _).trans (exec_sameInputs hexec)

/-- The model's step is the event Step, then the gap (log 2). -/
theorem step_eq (s : State) : step s = andThen (coreStep s) passGap := rfl

theorem step_next {s t : State} : step s = .next t ↔ ∃ c, coreStep s = .next c ∧ passGap c = .next t :=
  andThen_next

/-! ### The obligations about the event Step -/

theorem keeps_fetched (s : State) (op : Word) : Keeps s (s.fetched op) Part.isReport :=
  keeps_quiet_setTrace s _

/-- Settles O7: the branch of a running core with both bytes in memory and a word that decodes. -/
theorem stepRunsTheDecodedInstruction : Obligations.StepRunsTheDecodedInstruction := by
  intro s i hrun hpc hdecode
  have hcore : coreStep s = exec i (s.fetched (wordAtPc s)) :=
    (coreStep_of_inside hrun hpc).trans (runWord_of_ok hdecode s)
  refine ⟨rfl, rfl, rfl, rfl, keeps_fetched s _, hcore, ?_⟩
  rw [step_eq, hcore]
  rfl

theorem keeps_setDecodeFail (s : State) (d : Bool) : Keeps s (s.setDecodeFail d) Part.isReport := by
  intro p
  cases p with
  | decodeFail => exact .inl (.inr (.inl rfl))
  | _ => exact .inr rfl

/-- `PC` is no `Part`, so a frame does not see it written. -/
theorem keeps_setPc_of_keeps {s t : State} {written : Part → Prop} (w : Word) (h : Keeps s t written) :
    Keeps s (t.setPc w) written :=
  fun p => (h p).imp_right fun hp => by cases p <;> exact hp

theorem keeps_mono {s t : State} {P Q : Part → Prop} (h : Keeps s t P) (hPQ : ∀ p, P p → Q p) : Keeps s t Q :=
  fun p => (h p).imp_left (hPQ p)

theorem keeps_decodeFailure (s : State) : Keeps s (decodeFailure s) Part.isReport :=
  keeps_advance (keeps_setDecodeFail s true)

/-- Settles O9: the reports are renewed, `decode_fail` is raised and `PC` advances. -/
theorem decodeFailureIsReportedNoOp : Obligations.DecodeFailureIsReportedNoOp := by
  intro s e hrun hpc hdecode
  have hstep := (coreStep_of_inside hrun hpc).trans (runWord_of_error hdecode s)
  have hkeeps := keeps_trans (keeps_fetched s (wordAtPc s)) (keeps_decodeFailure _)
  refine ⟨_, hstep, ?advances, decodeFailure_decodeFail _, ?quiet, ?traced, keeps_mono hkeeps fun _ h => h.elim id id⟩
  case advances => exact advances_advance (s.fetched_pc (wordAtPc s))
  case quiet => rw [decodeFailure_waiting, State.fetched_waiting]
  case traced => rw [decodeFailure_trace, State.fetched_trace]

theorem keeps_quiet (s : State) : Keeps s s.quiet Part.isReport := keeps_quiet_setTrace s none

/-- Settles O10: `max PC MEM_SIZE` is `PC` when `PC` is outside memory and `MEM_SIZE` when only the second byte is. -/
theorem fetchOutOfRangeFaults : Obligations.FetchOutOfRangeFaults := by
  intro s hrun hpc
  have haddr : (BitVec.ofNat 17 (max s.pc.toNat s.params.memSize)).toNat = max s.pc.toNat s.params.memSize := by
    have hlt := s.pc.isLt
    exact Nat.mod_eq_of_lt (by omega)
  refine ⟨_, coreStep_of_outside hrun (by omega), rfl, rfl, rfl, rfl, fun hout => haddr.trans (by omega),
    fun hin => haddr.trans (by omega), rfl, rfl, rfl, keeps_trans (keeps_quiet s) (keeps_faulted _ _ _)⟩

/-- Settles O11: a stopped core's step renews the reports and does nothing else. -/
theorem stoppedCoreStepChangesNothing : Obligations.StoppedCoreStepChangesNothing := fun s h =>
  ⟨_, coreStep_of_stopped h, rfl, keeps_quiet s, rfl, rfl, rfl⟩

/-! ### A placed word -/

/-- R5's constraints, in numbers. -/
theorem legal_iff {p : Params} : p.legal = true ↔
    0x202 ≤ p.memSize ∧ p.memSize ≤ 2 ^ 16 ∧ 2 ≤ p.stackTop ∧ p.stackTop ≤ p.memSize ∧ p.stackTop < 2 ^ 16 ∧
      p.stackTop % 2 = 0 := by
  simp [Params.legal, and_assoc]

theorem fetchPlace_of_inside {s : State} (h : s.pc.toNat + 2 ≤ s.params.memSize) : fetchPlace s = s.pc := by
  rw [fetchPlace, firstOutOfRange_eq_none.2 h]

theorem fetchPlace_inside {s : State} (h : s.params.legal = true) : (fetchPlace s).toNat + 2 ≤ s.params.memSize := by
  obtain ⟨hmem, -⟩ := legal_iff.1 h
  unfold fetchPlace
  split
  next hin => exact firstOutOfRange_eq_none.1 hin
  next => exact hmem

theorem placeWord_fault (s : State) (op : Word) : (placeWord s op).fault = false := by
  unfold placeWord
  split
  next => rfl
  next h => exact Bool.eq_false_iff.2 h

/-- A word is placed at the fetch address, and `PC` goes there. -/
theorem placeWord_pc_mem_params (s : State) (op : Word) :
    (placeWord s op).pc = fetchPlace s ∧ (placeWord s op).params = s.params ∧
      (placeWord s op).mem = s.mem.writeBytes (fetchPlace s).toNat (bytesOfWord op) := by
  unfold placeWord
  split <;> exact ⟨rfl, rfl, rfl⟩

theorem wordAtPc_placeWord {s : State} (hlegal : s.params.legal = true) (hwf : s.mem.wf s.params.memSize = true)
    (op : Word) : wordAtPc (placeWord s op) = op := by
  obtain ⟨hpc, -, hmem⟩ := placeWord_pc_mem_params s op
  rw [wordAtPc, hpc, hmem, Memory.readWord_writeBytes hwf (fetchPlace_inside hlegal), wordOfBytes_bytes]

theorem keeps_setMem_writeBytes (s : State) (a : Nat) (bs : List Byte) :
    Keeps s (s.setMem (s.mem.writeBytes a bs)) (Part.isByteIn a bs.length) := by
  intro p
  cases p with
  | byte c =>
    by_cases hin : a ≤ c ∧ c < a + bs.length
    · exact .inl ⟨c - a, by omega, by rw [Nat.add_sub_cancel' hin.1]⟩
    · exact .inr (Memory.read_writeBytes_out s.mem a bs (by omega))
  | _ => exact .inr rfl

/-- Settles O8: the two bytes placed at the fetch address read back as the word. -/
theorem placedWordIsExecutedNext : Obligations.PlacedWordIsExecutedNext := by
  intro s w i hlegal hwf hdecode
  rw [State.withFetchWord, tableWord_toNat]
  obtain ⟨hpc, hparams, -⟩ := placeWord_pc_mem_params s w
  have hword := wordAtPc_placeWord hlegal hwf w
  refine ⟨?runs, fun hrun hin => ?frame⟩
  case runs =>
    rw [coreStep_of_inside (placeWord_fault s w) (by rw [hpc, hparams]; exact fetchPlace_inside hlegal), hword,
      runWord_of_ok hdecode]
  case frame =>
    have hplace := fetchPlace_of_inside hin
    refine ⟨hpc.trans hplace, ?_⟩
    rw [placeWord, if_neg (by simp [hrun]), hplace]
    exact keeps_setMem_writeBytes s s.pc.toNat (bytesOfWord w)

/-! ### A finished program -/

/-- The self-jump at `PC` (R204, decision D29). -/
theorem finished_iff {s : State} : s.finished = true ↔
    s.fault = false ∧ s.pc.toNat + 2 ≤ s.params.memSize ∧
      ∃ nnn, decodeWord (wordAtPc s) = .ok (.jp nnn) ∧ zext16 nnn = s.pc := by
  unfold State.finished wordAtPc
  rw [← firstOutOfRange_eq_none (size := s.params.memSize)]
  split <;> simp_all [and_assoc]

theorem finished_congr {s t : State} (hfault : t.fault = s.fault) (hpc : t.pc = s.pc) (hmem : t.mem = s.mem)
    (hparams : t.params = s.params) : t.finished = s.finished := by
  unfold State.finished
  rw [hfault, hpc, hmem, hparams]

/-- Settles O48: the step runs the jump, which writes the `PC` that is there. -/
theorem selfJumpStaysFinished : Obligations.SelfJumpStaysFinished := by
  intro s h
  obtain ⟨hrun, hpc, nnn, hdecode, htarget⟩ := finished_iff.1 h
  refine ⟨(s.fetched (wordAtPc s)).setPc (zext16 nnn), ?runs, ?finished, htarget, ?frame⟩
  case runs => rw [coreStep_of_inside hrun hpc, runWord_of_ok hdecode, exec_jp]
  case finished =>
    rw [finished_congr (s := s) (by simp) (by simpa using htarget) (by simp) (by simp), h]
  case frame => exact keeps_setPc_of_keeps _ (keeps_fetched s _)

/-! ### Steps whose gap holds no `Reset` -/

/-- The state that a gap without a `Reset` leaves. -/
def gapEnd (c : State) (n : Nat) (keys : BitVec 16) (rnd : Byte) (rest : List Gap) : State :=
  (((ticks n c).setScript rest).setInputs keys rnd).setDraws (c.draws + 1)

/-- The inversion of a step whose gap holds no `Reset`: the event Step, then a count-down and the next inputs. -/
theorem step_of_noReset {s c : State} (hgap : s.NoResetNext) (h : coreStep s = .next c) :
    ∃ n keys rnd rest, step s = .next (gapEnd c n keys rnd rest) := by
  have hscript := (coreStep_sameInputs h).script
  obtain ⟨n, keys, rnd, rest, hpass⟩ := passGap_noReset (s := c) fun g rest hg => hgap g rest (hscript ▸ hg)
  exact ⟨n, keys, rnd, rest, by rw [step_eq, h, andThen_of_next, hpass, gapEnd]⟩

theorem keeps_gapEnd (c : State) (n : Nat) (keys : BitVec 16) (rnd : Byte) (rest : List Gap) :
    Keeps c (gapEnd c n keys rnd rest) fun p => p = .dt ∨ p = .st ∨ p.isInput := by
  intro p
  cases p with
  | dt => exact .inl (.inl rfl)
  | st => exact .inl (.inr (.inl rfl))
  | keys => exact .inl (.inr (.inr (.inl rfl)))
  | rnd => exact .inl (.inr (.inr (.inr (.inl rfl))))
  | script => exact .inl (.inr (.inr (.inr (.inr (.inl rfl)))))
  | draws => exact .inl (.inr (.inr (.inr (.inr (.inr rfl)))))
  | _ => exact .inr rfl

/-- Settles O15: the event Step renews the reports and the gap writes the timers and the inputs. -/
theorem onlyResetLeavesAFault : Obligations.OnlyResetLeavesAFault := by
  intro s t hstopped hgap h
  obtain ⟨n, keys, rnd, rest, hstep⟩ := step_of_noReset hgap (coreStep_of_stopped hstopped)
  cases hstep.symm.trans h
  have hkeeps := keeps_trans (keeps_quiet s) (keeps_gapEnd s.quiet n keys rnd rest)
  refine ⟨s.quiet_fault.trans hstopped, s.quiet_pc, keeps_mono hkeeps fun p hp => ?_⟩
  rcases hp with (hdt | hst | hinput) | hreport
  · exact .inl hdt
  · exact .inr (.inl hst)
  · exact .inr (.inr (.inr hinput))
  · exact .inr (.inr (.inl hreport))

theorem coreStep_dt {s c : State} (h : coreStep s = .next c) (hdt : c.dt ≠ s.dt) :
    ∃ x, decodeWord (wordAtPc s) = .ok (.ldDtVx x) := by
  obtain ⟨-, rfl⟩ | ⟨-, a, rfl⟩ | ⟨-, rfl⟩ | ⟨-, i, hdecode, hexec⟩ := coreStep_next_cases h
  · exact absurd s.quiet_dt hdt
  · exact absurd s.quiet_dt hdt
  · exact absurd ((decodeFailure_dt _).trans (s.fetched_dt _)) hdt
  · rw [← s.fetched_dt (wordAtPc s)] at hdt
    obtain ⟨-, rfl⟩ | ⟨c, a, -, rfl⟩ := nextIs_of_exec hexec
    · obtain ⟨x, rfl⟩ := writer_of_dt_ne hdt
      exact ⟨x, hdecode⟩
    · exact absurd rfl hdt

/-- Settles O38: the gap only lowers `DT`, so the event Step wrote it. -/
theorem delayTimerRisesOnlyByLoad : Obligations.DelayTimerRisesOnlyByLoad := by
  intro s t hgap h hrise
  obtain ⟨c, hcore, -⟩ := step_next.1 h
  obtain ⟨n, keys, rnd, rest, hstep⟩ := step_of_noReset hgap hcore
  cases hstep.symm.trans h
  have hcount : (gapEnd c n keys rnd rest).dt.toNat = c.dt.toNat - n := toNat_countDown c.dt n
  refine coreStep_dt hcore fun hdt => ?_
  rw [hcount, hdt] at hrise
  omega

/-! ### What each gap does -/

theorem passGap_of_ticks {c : State} {n : Nat} {keys : BitVec 16} {rnd : Byte} {rest : List Gap}
    (h : c.script = ⟨List.replicate n .tick, keys, rnd⟩ :: rest) :
    passGap c = .next (gapEnd c n keys rnd rest) := by
  rw [passGap, h]
  simp only [applyEvents_ticks, andThen_of_next]
  rfl

theorem setScript_eq_self {s : State} {g : List Gap} (h : s.script = g) : s.setScript g = s := by
  subst h
  rfl

theorem passGap_of_nil {c : State} (h : c.script = []) :
    passGap c = .next (gapEnd c (Config.freeTicks c.draws) (Config.freeKeys c.draws) (Config.freeRnd c.draws) []) := by
  rw [gapEnd, setScript_eq_self ((ticks_script c _).trans h), passGap, h]

/-- The state that `Reset` leaves (R200). -/
def resetState (program font : List Byte) (s : State) : State :=
  { State.resetWith s.params with
    mem := imageMemory program font, keys := s.keys, rnd := s.rnd, script := s.script, draws := s.draws }

/-- The inversion of `Reset`: it is not refused, and leaves that state. -/
theorem reset_next {program font : List Byte} {s t : State} (h : reset program font s = .next t) :
    fontFits font = true ∧ imageFits s.params.memSize program = true ∧ t = resetState program font s := by
  unfold reset at h
  split at h
  next hfont =>
    split at h
    next himage =>
      cases h
      exact ⟨hfont, himage, rfl⟩
    next => cases h
  next => cases h

theorem passGap_of_reset {c : State} {program font : List Byte} {keys : BitVec 16} {rnd : Byte} {rest : List Gap}
    (h : c.script = ⟨[.reset program font], keys, rnd⟩ :: rest) :
    passGap c = andThen (reset program font (c.setScript rest)) fun t =>
      .next ((t.setInputs keys rnd).setDraws (c.draws + 1)) := by
  rw [passGap, h]
  simp only [applyEvents, applyEvent]
  cases hr : reset program font (c.setScript rest) with
  | next t =>
    obtain ⟨-, -, rfl⟩ := reset_next hr
    rfl
  | fault e => rfl
  | refused e => rfl

/-- Settles O40: the event Step keeps the script and the draws, so the coming gap is the one scripted before it. -/
theorem gapGivesTicksResetsAndInputs : Obligations.GapGivesTicksResetsAndInputs := by
  intro s c hcore
  obtain ⟨-, -, hscript, hdraws, -⟩ := coreStep_sameInputs hcore
  have hstep : step s = passGap c := by rw [step_eq, hcore, andThen_of_next]
  rw [hstep, ← hscript, ← hdraws]
  refine ⟨fun n keys rnd rest h => ?ticks, fun program font keys rnd rest h => passGap_of_reset h, fun h => ?free⟩
  case ticks =>
    exact ⟨_, passGap_of_ticks h, rfl, rfl, rfl, rfl, rfl, toNat_countDown c.dt n, toNat_countDown c.st n,
      keeps_gapEnd c n keys rnd rest⟩
  case free =>
    exact ⟨_, passGap_of_nil h, rfl, rfl, rfl, ⟨_, toNat_countDown c.dt _, toNat_countDown c.st _⟩,
      keeps_gapEnd c _ _ _ _⟩

/-! ### What every step keeps -/

/-- What every event and every part of a gap keeps. -/
structure GapKeeps (P : State → Prop) : Prop where
  ticks : ∀ n s, P s → P (ticks n s)
  reset : ∀ program font s t, P s → reset program font s = .next t → P t
  setScript : ∀ g s, P s → P (s.setScript g)
  setInputs : ∀ keys rnd s, P s → P (s.setInputs keys rnd)
  setDraws : ∀ n s, P s → P (s.setDraws n)

theorem GapKeeps.applyEvents {P : State → Prop} (hP : GapKeeps P) (es : List Event) {s t : State} (hs : P s)
    (h : applyEvents es s = .next t) : P t := by
  induction es generalizing s with
  | nil =>
    cases h
    exact hs
  | cons e es ih =>
    obtain ⟨u, hu, ht⟩ := andThen_next.1 h
    refine ih ?_ ht
    cases e with
    | tick =>
      cases hu
      exact hP.ticks 1 s hs
    | reset program font => exact hP.reset program font s u hs hu

theorem GapKeeps.passGap {P : State → Prop} (hP : GapKeeps P) {s t : State} (hs : P s) (h : passGap s = .next t) :
    P t := by
  unfold Machine.passGap at h
  split at h
  next g rest _ =>
    obtain ⟨u, hu, ht⟩ := andThen_next.1 h
    cases ht
    exact hP.setDraws _ _ (hP.setInputs _ _ _ (hP.applyEvents g.events (hP.setScript rest s hs) hu))
  next =>
    cases h
    exact hP.setDraws _ _ (hP.setInputs _ _ _ (hP.ticks _ s hs))

theorem gapKeeps_params (p : Params) : GapKeeps fun s => s.params = p where
  ticks _ _ := id
  reset _ _ _ _ hs h := by
    obtain ⟨-, -, rfl⟩ := reset_next h
    exact hs
  setScript _ _ := id
  setInputs _ _ _ := id
  setDraws _ _ := id

/-- Settles O43: neither the event Step nor a gap writes the parameters. -/
theorem noStepChangesTheParameters : Obligations.NoStepChangesTheParameters := by
  intro s t h
  obtain ⟨c, hcore, hgap⟩ := step_next.1 h
  exact (gapKeeps_params s.params).passGap (coreStep_sameInputs hcore).params hgap

end Sys2Proof
end

section
/-! PROOFS of the family "other", the invariant: O39 (what `Reset` builds, R200, R201), O41 (the invariant after reset),
O42 (every step keeps it: R26, R29, R170, R172) and O44 (under it every step answers). -/

namespace Sys2Proof

open Machine

/-! ### The image of a program (R201) -/

theorem fontFits_iff {font : List Byte} : fontFits font = true ↔ font.length = 80 := beq_iff_eq

theorem imageFits_iff {size : Nat} (hsize : 0x200 ≤ size) {program : List Byte} :
    imageFits size program = true ↔ 0x200 + program.length ≤ size := by
  rw [imageFits, decide_eq_true_iff, Config.progBase]
  omega

section Image

variable {size : Nat} {program font : List Byte} (hfont : font.length = 80) (hsize : 0x202 ≤ size)
include hfont hsize

theorem wf_font : (Memory.writeBytes [] Config.fontBase font).wf size = true :=
  Memory.wf_writeBytes (Memory.wf_nil size) _ _ (by simp only [Config.fontBase]; omega)

theorem wf_imageMemory (hfit : 0x200 + program.length ≤ size) : (imageMemory program font).wf size = true :=
  Memory.wf_writeBytes (wf_font hfont hsize) _ _ hfit

/-- The glyphs lie below the program. -/
theorem read_imageMemory_font (k : Nat) (hk : k < font.length) : (imageMemory program font).read k = font[k] := by
  have hread := Memory.read_writeBytes_in (Memory.wf_nil size) Config.fontBase font
    (by simp only [Config.fontBase]; omega) k hk
  rw [Config.fontBase, Nat.zero_add] at hread
  rw [imageMemory, Memory.read_writeBytes_out _ _ _ (.inl (by simp only [Config.progBase]; omega)), hread]

theorem read_imageMemory_program (hfit : 0x200 + program.length ≤ size) (k : Nat) (hk : k < program.length) :
    (imageMemory program font).read (0x200 + k) = program[k] :=
  Memory.read_writeBytes_in (wf_font hfont hsize) Config.progBase program hfit k hk

omit hsize in
/-- Outside the glyphs and the program, memory reads 0 (decision D9). -/
theorem read_imageMemory_rest {a : Nat} (ha : 80 ≤ a) (hout : a < 0x200 ∨ 0x200 + program.length ≤ a) :
    (imageMemory program font).read a = 0 := by
  rw [imageMemory, Memory.read_writeBytes_out _ _ _ hout,
    Memory.read_writeBytes_out _ _ _ (.inr (by simp only [Config.fontBase]; omega)), Memory.read_nil, Memory.unlisted,
    if_neg (by simp only [Config.glyphBytes, Config.glyphCount]; omega)]

end Image

/-! ### `Reset`, one equation a branch -/

theorem reset_of_fits {program font : List Byte} {s : State} (hfont : font.length = 80)
    (himage : imageFits s.params.memSize program = true) :
    reset program font s = .next (resetState program font s) := by
  rw [reset, if_pos (fontFits_iff.2 hfont), if_pos himage]
  rfl

/-- Settles O39: the registers are those of a machine right after reset, and the image is read byte by byte. -/
theorem resetBuildsStateAndImage : Obligations.ResetBuildsStateAndImage := by
  intro program font s hlegal
  obtain ⟨hmem, -, -, -, htop, -⟩ := legal_iff.1 hlegal
  have himage := imageFits_iff (program := program) (size := s.params.memSize) (by omega)
  refine ⟨fun hfit hfont => ⟨_, reset_of_fits hfont (himage.2 hfit), ?built⟩, fun hlong hfont => ?tooLong,
    fun hfont => ?wrongFont⟩
  case built =>
    exact ⟨rfl, Nat.mod_eq_of_lt htop, State.resetWith_reg s.params, rfl, rfl, rfl, rfl, rfl, rfl, rfl,
      Frame.pixel_clear, wf_imageMemory hfont hmem hfit, read_imageMemory_font hfont hmem,
      fun a ha hbelow => read_imageMemory_rest hfont ha (.inl hbelow), read_imageMemory_program hfont hmem hfit,
      fun a habove _ => read_imageMemory_rest hfont (by omega) (.inr habove), rfl, rfl, rfl, rfl, rfl⟩
  case tooLong =>
    rw [reset, if_pos (fontFits_iff.2 hfont), if_neg fun h => absurd (himage.1 h) (by omega)]
  case wrongFont => rw [reset, if_neg (mt fontFits_iff.1 hfont)]

/-! ### The invariant after reset -/

theorem inv_resetWith {p : Params} (h : p.legal = true) : (State.resetWith p).Inv := by
  obtain ⟨-, -, -, -, htop, heven⟩ := legal_iff.1 h
  have hsp : (State.resetWith p).sp.toNat = p.stackTop := Nat.mod_eq_of_lt htop
  refine ⟨h, rfl, ⟨hsp.le, hsp ▸ heven, fun limit _ => ?_⟩, ⟨rfl, rfl, rfl⟩⟩
  have hempty : (State.resetWith p).stackEntries = 0 := by
    rw [State.stackEntries, hsp]
    exact congrArg (· / 2) (Nat.sub_self p.stackTop)
  rw [hempty]
  exact Nat.zero_le limit

theorem inv_reset {program font : List Byte} {s t : State} (hlegal : s.params.legal = true)
    (h : reset program font s = .next t) : t.Inv := by
  obtain ⟨hfont, himage, rfl⟩ := reset_next h
  obtain ⟨hmem, -⟩ := legal_iff.1 hlegal
  have hfit := (imageFits_iff (by omega)).1 himage
  obtain ⟨hparams, -, hstack, hrecord⟩ := inv_resetWith hlegal
  exact ⟨hparams, wf_imageMemory (fontFits_iff.1 hfont) hmem hfit, hstack, hrecord⟩

theorem legal_default : Params.legal {} = true := by decide

/-- Settles O41: reset empties the stack and clears the record, and the image is canonical. -/
theorem resetStatesHoldTheInvariant : Obligations.ResetStatesHoldTheInvariant := by
  refine ⟨inv_resetWith legal_default, fun program hlen => ?boot, fun p hp => inv_resetWith hp,
    fun program font s t hlegal h => inv_reset hlegal h⟩
  case boot =>
    have hreset : boot program = .next (resetState program Config.font State.reset) :=
      reset_of_fits rfl ((imageFits_iff (by decide)).2 (by change 0x200 + program.length ≤ 0x1000; omega))
    exact ⟨_, hreset, inv_reset legal_default hreset⟩

/-! ### Each part of the invariant under a step -/

theorem spLegal_congr {s t : State} (hparams : t.params = s.params) (hsp : t.sp = s.sp) (h : s.SpLegal) :
    t.SpLegal := by
  unfold State.SpLegal
  rw [State.stackEntries_congr hparams hsp, hparams, hsp]
  exact h

/-- While the core runs the record is clear, whatever `PC` is. -/
theorem recordLegal_of_running {s t : State} (hrun : s.fault = false) (hsame : SameRecord s t) (h : s.RecordLegal) :
    t.RecordLegal := by
  unfold State.RecordLegal at h ⊢
  rw [hsame.fault, hrun, hsame.faultCause, hsame.faultAddr, hsame.faultPc]
  rwa [hrun] at h

theorem recordLegal_of_pc {s t : State} (hpc : t.pc = s.pc) (hsame : SameRecord s t) (h : s.RecordLegal) :
    t.RecordLegal := by
  unfold State.RecordLegal
  rw [hsame.fault, hsame.faultCause, hsame.faultAddr, hsame.faultPc, hpc]
  exact h

/-- A change of the parts the invariant does not speak of. -/
theorem inv_congr {s t : State} (hparams : t.params = s.params) (hmem : t.mem = s.mem) (hsp : t.sp = s.sp)
    (hpc : t.pc = s.pc) (hsame : SameRecord s t) (h : s.Inv) : t.Inv :=
  ⟨hparams ▸ h.params, by rw [hmem, hparams]; exact h.memory, spLegal_congr hparams hsp h.stack,
    recordLegal_of_pc hpc hsame h.record⟩

theorem code_bounds (c : Cause) : 1 ≤ c.code.toNat ∧ c.code.toNat ≤ 5 := by
  cases c <;> decide

/-- A fault completes the record, and writes nothing else (R172). -/
theorem inv_faulted {s : State} (c : Cause) (a : Nat) (h : s.Inv) : (s.faulted c a).Inv :=
  ⟨h.params, h.memory, h.stack, ⟨code_bounds c, rfl⟩⟩

theorem two_le_of_not_full {s : State} (h : s.stackFull = false) : 2 ≤ s.sp.toNat := by
  by_contra hlow
  rw [State.stackFull_eq_true.2 (.inl (Nat.lt_of_not_le hlow))] at h
  cases h

theorem lt_limit_of_not_full {s : State} (h : s.stackFull = false) {limit : Nat}
    (hlimit : s.params.stackLimit = some limit) : s.stackEntries < limit := by
  by_contra hfull
  rw [State.stackFull_eq_true.2 (.inr ⟨limit, hlimit, Nat.le_of_not_lt hfull⟩)] at h
  cases h

theorem toNat_sub_two {w : Word} (h : 2 ≤ w.toNat) : (w - 2).toNat = w.toNat - 2 :=
  BitVec.toNat_sub_of_le (BitVec.le_def.2 h)

theorem toNat_add_two {w : Word} (h : w.toNat + 2 < 2 ^ 16) : (w + 2).toNat = w.toNat + 2 :=
  Nat.mod_eq_of_lt h

/-- The writers of memory store inside it: a push below `SP`, the digits and a register group above `I`. -/
theorem wf_after {s : State} {i : Instr} (hwf : s.mem.wf s.params.memSize = true) (hallows : Allows s i) :
    (after s i).mem.wf s.params.memSize = true := by
  by_cases hmem : (after s i).mem = s.mem
  · rw [hmem]
    exact hwf
  · obtain ⟨nnn, rfl⟩ | ⟨x, rfl⟩ | ⟨x, rfl⟩ := writer_of_mem_ne hmem
    · obtain ⟨hroom, htop⟩ := hallows
      have hsp := two_le_of_not_full hroom
      exact Memory.wf_writeBytes hwf _ _ (by rw [length_bytesOfWord]; omega)
    · exact Memory.wf_writeBytes hwf _ _ hallows
    · exact Memory.wf_writeBytes hwf _ _ (by rw [length_regGroup]; exact hallows)

/-- `RET` and `CALL` move `SP` by one entry, inside the stack and its limit (R26). -/
theorem spLegal_after {s : State} {i : Instr} (hlegal : s.params.legal = true) (h : s.SpLegal)
    (hallows : Allows s i) : (after s i).SpLegal := by
  by_cases hsp : (after s i).sp = s.sp
  · exact spLegal_congr (after_sameInputs s i).params hsp h
  · obtain ⟨-, -, -, -, htop16, -⟩ := legal_iff.1 hlegal
    obtain ⟨htop, heven, hlimit⟩ := h
    obtain rfl | ⟨nnn, rfl⟩ := writer_of_sp_ne hsp
    · obtain ⟨hpop, -⟩ := hallows
      have hnew : (after s .ret).sp.toNat = s.sp.toNat + 2 := toNat_add_two (by omega)
      refine ⟨hnew ▸ hpop, by omega, fun limit hl => le_trans ?_ (hlimit limit hl)⟩
      unfold State.stackEntries
      rw [hnew, (after_sameInputs s .ret).params]
      omega
    · obtain ⟨hroom, -⟩ := hallows
      have hlow := two_le_of_not_full hroom
      have hnew : (after s (.call nnn)).sp.toNat = s.sp.toNat - 2 := toNat_sub_two hlow
      refine ⟨hnew ▸ (by omega : s.sp.toNat - 2 ≤ s.params.stackTop), by omega, fun limit hl => ?_⟩
      have hlt := lt_limit_of_not_full hroom (limit := limit) hl
      unfold State.stackEntries at hlt ⊢
      rw [hnew, (after_sameInputs s (.call nnn)).params]
      omega

/-! ### The step -/

theorem inv_exec {i : Instr} {s t : State} (h : s.Inv) (hrun : s.fault = false) (hexec : exec i s = .next t) :
    t.Inv := by
  obtain ⟨hallows, rfl⟩ | ⟨c, a, -, rfl⟩ := nextIs_of_exec hexec
  · have hparams := (after_sameInputs s i).params
    exact ⟨hparams ▸ h.params, hparams ▸ wf_after h.memory hallows, spLegal_after h.params h.stack hallows,
      recordLegal_of_running hrun (after_sameRecord s i) h.record⟩
  · exact inv_faulted c a h

theorem inv_quiet {s : State} (h : s.Inv) : s.quiet.Inv :=
  inv_congr s.quiet_params s.quiet_mem s.quiet_sp s.quiet_pc
    ⟨s.quiet_fault, s.quiet_faultCause, s.quiet_faultAddr, s.quiet_faultPc⟩ h

theorem inv_fetched {s : State} (op : Word) (h : s.Inv) : (s.fetched op).Inv :=
  inv_congr (s.fetched_params op) (s.fetched_mem op) (s.fetched_sp op) (s.fetched_pc op)
    ⟨s.fetched_fault op, s.fetched_faultCause op, s.fetched_faultAddr op, s.fetched_faultPc op⟩ h

theorem inv_decodeFailure {s : State} (hrun : s.fault = false) (h : s.Inv) : (decodeFailure s).Inv :=
  ⟨h.params, h.memory, h.stack, recordLegal_of_running hrun ⟨rfl, rfl, rfl, rfl⟩ h.record⟩

theorem inv_coreStep {s c : State} (h : s.Inv) (hcore : coreStep s = .next c) : c.Inv := by
  obtain ⟨-, rfl⟩ | ⟨-, a, rfl⟩ | ⟨hrun, rfl⟩ | ⟨hrun, i, -, hexec⟩ := coreStep_next_cases hcore
  · exact inv_quiet h
  · exact inv_faulted _ a (inv_quiet h)
  · exact inv_decodeFailure ((s.fetched_fault _).trans hrun) (inv_fetched _ h)
  · exact inv_exec (inv_fetched _ h) ((s.fetched_fault _).trans hrun) hexec

theorem gapKeeps_inv : GapKeeps State.Inv where
  ticks _ _ h := ⟨h.params, h.memory, h.stack, h.record⟩
  reset _ _ _ _ hs h := inv_reset hs.params h
  setScript _ _ h := ⟨h.params, h.memory, h.stack, h.record⟩
  setInputs _ _ _ h := ⟨h.params, h.memory, h.stack, h.record⟩
  setDraws _ _ h := ⟨h.params, h.memory, h.stack, h.record⟩

/-- Settles O42: the event Step keeps the invariant by its four branches, the gap by its events. -/
theorem everyStepKeepsTheInvariant : Obligations.EveryStepKeepsTheInvariant := by
  intro s t h hstep
  obtain ⟨c, hcore, hgap⟩ := step_next.1 hstep
  exact gapKeeps_inv.passGap (inv_coreStep h hcore) hgap

/-! ### Under the invariant every step answers -/

/-- The cases in which `exec` stops need an `SP` above `STACK_TOP`, a `STACK_TOP` above `MEM_SIZE` or the refusing
`VF_ORDER`. -/
theorem exec_answers {s : State} (h : s.Inv) (hvf : s.params.vfOrder = .flagLast) (i : Instr) :
    ∃ t, exec i s = .next t := by
  by_contra hstop
  obtain ⟨-, -, -, hmem, -⟩ := legal_iff.1 h.params
  obtain ⟨htop, -⟩ := h.stack
  obtain ⟨nnn, -, hsp⟩ | ⟨-, hout, hpop⟩ | ⟨hrefuse, -⟩ := stop_cases (not_exists.1 hstop)
  · omega
  · omega
  · rw [hvf] at hrefuse
    cases hrefuse

theorem coreStep_answers {s : State} (h : s.Inv) (hvf : s.params.vfOrder = .flagLast) :
    ∃ c, coreStep s = .next c := by
  cases hf : s.fault with
  | true => exact ⟨_, coreStep_of_stopped hf⟩
  | false =>
    rcases Nat.lt_or_ge s.params.memSize (s.pc.toNat + 2) with hpc | hpc
    · exact ⟨_, coreStep_of_outside hf hpc⟩
    · rw [coreStep_of_inside hf hpc]
      cases hd : decodeWord (wordAtPc s) with
      | error e => exact ⟨_, runWord_of_error hd s⟩
      | ok i =>
        rw [runWord_of_ok hd]
        exact exec_answers (inv_fetched _ h) ((congrArg Params.vfOrder (s.fetched_params _)).trans hvf) i

/-- Settles O44: the event Step answers, and a gap without a `Reset` refuses nothing. -/
theorem everyStepAnswersANextState : Obligations.EveryStepAnswersANextState := by
  intro s h hvf hgap
  obtain ⟨c, hcore⟩ := coreStep_answers h hvf
  obtain ⟨n, keys, rnd, rest, hstep⟩ := step_of_noReset hgap hcore
  exact ⟨_, hstep⟩

end Sys2Proof
end

section
/-! PROOFS of the family "other", the stack: O17 (`CALL`, R102), O18 (`RET`, R100) and O19 (the round trip, S3). -/

namespace Sys2Proof

open Machine

theorem keeps_setSp (s : State) (w : Word) : Keeps s (s.setSp w) fun p => p = .sp := by
  intro p
  cases p with
  | sp => exact .inl rfl
  | _ => exact .inr rfl

theorem allows_call {s : State} (h : s.HasStackRoom) (nnn : Addr12) : Allows s (.call nnn) := by
  obtain ⟨hlow, hmem, hlimit⟩ := h
  exact ⟨stackFull_eq_false hlow hlimit, hmem⟩

theorem allows_ret {s : State} (hlegal : s.params.legal = true) (h : s.sp.toNat + 2 ≤ s.params.stackTop) :
    Allows s .ret := by
  obtain ⟨-, -, -, hmem, -⟩ := legal_iff.1 hlegal
  exact ⟨h, h.trans hmem⟩

theorem keeps_after_call (s : State) (nnn : Addr12) :
    Keeps s (after s (.call nnn)) fun p => p = .sp ∨ p.isByteIn (s.sp.toNat - 2) 2 :=
  keeps_setPc_of_keeps _ (keeps_trans (keeps_setMem_writeBytes s _ (bytesOfWord (s.pc + 2))) (keeps_setSp _ _))

theorem keeps_after_ret (s : State) : Keeps s (after s .ret) fun p => p = .sp :=
  keeps_setPc_of_keeps _ (keeps_setSp s _)

theorem push_inside {s : State} (h : s.HasStackRoom) :
    s.sp.toNat - 2 + (bytesOfWord (s.pc + 2)).length ≤ s.params.memSize := by
  obtain ⟨hlow, hmem, -⟩ := h
  rw [length_bytesOfWord]
  omega

section Call

variable {s : State} (hwf : s.mem.wf s.params.memSize = true) (h : s.HasStackRoom) (nnn : Addr12)
include hwf h

theorem readWord_after_call : (after s (.call nnn)).mem.readWord (s.sp.toNat - 2) = s.pc + 2 :=
  (Memory.readWord_writeBytes hwf (push_inside h) _).trans (wordOfBytes_bytes _)

theorem read_after_call_high :
    ((after s (.call nnn)).mem.read (s.sp.toNat - 2)).toNat = (s.pc.toNat + 2) % 2 ^ 16 / 256 := by
  have hbyte := Memory.read_writeBytes_in hwf _ _ (push_inside h) 0 Nat.zero_lt_two
  exact (congrArg BitVec.toNat hbyte).trans ((toNat_hiByte _).trans (by rw [BitVec.toNat_add]; rfl))

theorem read_after_call_low :
    ((after s (.call nnn)).mem.read (s.sp.toNat - 2 + 1)).toNat = (s.pc.toNat + 2) % 256 := by
  have hbyte := Memory.read_writeBytes_in hwf _ _ (push_inside h) 1 Nat.one_lt_two
  refine (congrArg BitVec.toNat hbyte).trans ((toNat_loByte _).trans ?_)
  rw [BitVec.toNat_add]
  exact Nat.mod_mod_of_dvd _ (by decide)

end Call

/-- Settles O17: a push with room is a store of the two bytes of `PC + 2` below `SP`. -/
theorem callPushesReturnAddress : Obligations.CallPushesReturnAddress := by
  intro nnn s hwf hroom
  exact ⟨_, exec_of_allows (allows_call hroom nnn), toNat_zext16 nnn, toNat_sub_two hroom.1,
    read_after_call_high hwf hroom nnn, read_after_call_low hwf hroom nnn, keeps_after_call s nnn⟩

/-- Settles O18: a pop inside the stack is a read of the word at `SP`. -/
theorem retPopsReturnAddress : Obligations.RetPopsReturnAddress := by
  intro s hlegal hpop
  obtain ⟨-, -, -, -, htop, -⟩ := legal_iff.1 hlegal
  exact ⟨_, exec_of_allows (allows_ret hlegal hpop), toNat_readWord _ _, toNat_add_two (by omega), keeps_after_ret s⟩

/-- Settles O19: the pop reads the word just pushed, and `SP` is back where it was. -/
theorem callThenRetReturns : Obligations.CallThenRetReturns := by
  intro nnn s hlegal hwf hroom htop
  obtain ⟨-, -, -, -, htop16, -⟩ := legal_iff.1 hlegal
  have hlow := hroom.1
  have hparams := (after_sameInputs s (.call nnn)).params
  have hsp : (after s (.call nnn)).sp.toNat = s.sp.toNat - 2 := toNat_sub_two hlow
  have hallows : Allows (after s (.call nnn)) .ret := allows_ret (hparams ▸ hlegal) (by rw [hparams]; omega)
  refine ⟨_, exec_of_allows (allows_call hroom nnn), after (after s (.call nnn)) .ret, exec_of_allows hallows, ?pc,
    ?frame⟩
  case pc =>
    rw [after, State.setPc_pc, hsp, readWord_after_call hwf hroom nnn]
    exact BitVec.toNat_add ..
  case frame =>
    have hback : (after (after s (.call nnn)) .ret).sp = s.sp := by
      apply BitVec.eq_of_toNat_eq
      exact (toNat_add_two (by omega)).trans (by omega)
    intro p
    obtain (rfl | rfl | hbyte) | hsame := keeps_trans (keeps_after_call s nnn) (keeps_after_ret _) p
    · exact .inr hback
    · exact .inr hback
    · exact .inl hbyte
    · exact .inr hsame

end Sys2Proof
end

section
/-! PROOFS of the family "other", the flag writers: O23 (R128 to R132, order of the two writes R121). -/

namespace Sys2Proof

open Machine

/-! ### Results and flags, in numbers -/

theorem toNat_aluAdd (a b : Byte) : (aluAdd a b).result.toNat = (a.toNat + b.toNat) % 256 := BitVec.toNat_ofNat ..

theorem flag_aluAdd (a b : Byte) : (aluAdd a b).flag = true ↔ 255 < a.toNat + b.toNat := decide_eq_true_iff

theorem toNat_aluSub (a b : Byte) : (aluSub a b).result.toNat = (a.toNat + 256 - b.toNat) % 256 := by
  have hb := b.isLt
  rw [aluSub, BitVec.toNat_ofInt]
  omega

theorem flag_aluSub (a b : Byte) : (aluSub a b).flag = true ↔ b.toNat < a.toNat := decide_eq_true_iff

theorem toNat_aluShr (a : Byte) : (aluShr a).result.toNat = a.toNat / 2 := by
  have ha := a.isLt
  exact Nat.mod_eq_of_lt (by omega)

theorem flag_aluShr (a : Byte) : (aluShr a).flag = true ↔ a.toNat % 2 = 1 := by
  rw [aluShr, BitVec.getLsbD, Nat.testBit_zero, decide_eq_true_iff]

theorem toNat_aluShl (a : Byte) : (aluShl a).result.toNat = 2 * a.toNat % 256 := by
  rw [Nat.mul_comm]
  exact BitVec.toNat_ofNat ..

theorem flag_aluShl (a : Byte) : (aluShl a).flag = true ↔ 128 ≤ a.toNat := by
  have hmsb : (aluShl a).flag = a.msb := BitVec.msb_eq_getLsbD_last a |>.symm
  rw [hmsb, BitVec.msb_eq_decide, decide_eq_true_iff]

/-! ### The two writes -/

theorem keeps_setResultFlag (s : State) (x : Reg) (o : AluOut) :
    Keeps s (s.setResultFlag x o) fun p => p = .reg x ∨ p = .reg vf :=
  keeps_mono (keeps_trans (keeps_setReg s x o.result) (keeps_setReg _ vf (flagByte o.flag))) fun _ => Or.symm

theorem setResultFlag_reg_of_ne {s : State} {x : Reg} (o : AluOut) (h : x ≠ vf) :
    (s.setResultFlag x o).reg x = o.result :=
  (State.setReg_reg_ne _ _ h).trans (s.setReg_reg_self x o.result)

/-- The rule of the five flag writers, for an ALU output that has the result's number and decides the flag. -/
theorem writesResultAndFlag {x : Reg} {o : AluOut} {s : State} {result : Nat} {flag : Prop}
    (hallowed : s.params.vfOrder = .flagLast ∨ x ≠ vf) (hresult : o.result.toNat = result)
    (hflag : o.flag = true ↔ flag) : WritesResultAndFlag (writeResultFlag x o s) s x result flag := by
  have hnot : ¬ (s.params.vfOrder = .refuse ∧ x = vf) := by
    rintro ⟨hrefuse, hx⟩
    obtain hlast | hne := hallowed
    · rw [hlast] at hrefuse
      cases hrefuse
    · exact hne hx
  refine ⟨_, (writeResultFlag_eq ..).trans (if_neg hnot), advances_advance rfl, fun hne => ?result, fun hset => ?set,
    fun hclear => ?clear, keeps_advance (keeps_setResultFlag s x o)⟩
  case result => rw [State.advance_reg, setResultFlag_reg_of_ne o hne, hresult]
  case set => rw [State.advance_reg, setResultFlag_reg_vf, hflag.2 hset]; rfl
  case clear => rw [State.advance_reg, setResultFlag_reg_vf, Bool.eq_false_iff.2 (mt hflag.1 hclear)]; rfl

/-- Settles O23: each of the five is the flag-writer rule on its own ALU function. -/
theorem flagAluWritesResultThenFlag : Obligations.FlagAluWritesResultThenFlag := by
  intro x y s h
  exact ⟨writesResultAndFlag h (toNat_aluAdd ..) (flag_aluAdd ..),
    writesResultAndFlag h (toNat_aluSub ..) (flag_aluSub ..), writesResultAndFlag h (toNat_aluShr _) (flag_aluShr _),
    writesResultAndFlag h (toNat_aluSub ..) (flag_aluSub ..), writesResultAndFlag h (toNat_aluShl _) (flag_aluShl _)⟩

end Sys2Proof
end

section
/-! PROOFS of the family "other", index and memory: O27 (`LD B`, R144), O28 (`LD [I], Vx`, R145), O29 (`LD Vx, [I]`,
R146), O30 (dump, then load, S7) and O31 (stored bytes are fetched next, R65). -/

namespace Sys2Proof

open Machine

/-! ### The digits -/

/-- Settles O27: the store of the three digits, each of them below 256. -/
theorem bcdStoresThreeDigits : Obligations.BcdStoresThreeDigits := by
  intro x s hwf
  refine ⟨fun hin => ?stores, fun hout => records_ldB x hout⟩
  case stores =>
    have hrange : effAddr s 0 + 3 ≤ s.params.memSize := hin
    have hread : ∀ k (hk : k < 3), (after s (.ldB x)).mem.read (effAddr s k) = (bcdDigits (s.reg x))[k] :=
      fun k hk => Memory.read_writeBytes_in hwf _ (bcdDigits (s.reg x)) hrange k hk
    have hbyte := (s.reg x).isLt
    refine ⟨_, exec_of_allows hrange, advances_advance rfl, ?hundreds, ?tens, ?ones,
      keeps_advance (keeps_setMem_writeBytes s _ (bcdDigits (s.reg x)))⟩
    case hundreds =>
      rw [hread 0 (by omega)]
      exact Nat.mod_eq_of_lt (by omega)
    case tens =>
      rw [hread 1 (by omega)]
      exact Nat.mod_eq_of_lt (by omega)
    case ones =>
      rw [hread 2 (by omega)]
      exact Nat.mod_eq_of_lt (by omega)

/-! ### Register groups -/

theorem toNat_indexPast (x : Reg) (s : State) : (indexPast x s).toNat = (s.i.toNat + x.val + 1) % 2 ^ 16 := by
  rw [indexPast, BitVec.toNat_add, BitVec.toNat_ofNat]
  omega

/-- The byte of `V[k]` in the dump of a group that holds `k`. -/
theorem read_after_ldMemVx {x : Reg} {s : State} (hwf : s.mem.wf s.params.memSize = true)
    (hin : effAddr s x.val < s.params.memSize) {k : Reg} (hk : k ≤ x) :
    (after s (.ldMemVx x)).mem.read (effAddr s k.val) = s.reg k := by
  have hlen := length_regGroup x s
  have hkx : k.val < (regGroup x s).length := by rw [hlen]; exact Nat.lt_succ_of_le hk
  exact (Memory.read_writeBytes_in hwf (effAddr s 0) (regGroup x s) (by rw [hlen]; exact hin) k.val hkx).trans
    (getElem_regGroup x s k.val hkx)

theorem keeps_after_ldMemVx (x : Reg) (s : State) :
    Keeps s (after s (.ldMemVx x)) fun p => p = .index ∨ p.isByteIn (effAddr s 0) (x.val + 1) := by
  have hstore := keeps_setMem_writeBytes s (effAddr s 0) (regGroup x s)
  rw [length_regGroup] at hstore
  exact keeps_advance (keeps_trans hstore (keeps_setI _ _))

/-- Settles O28: the group is stored byte by byte, then `I` moves past it. -/
theorem registerDumpStoresTheGroup : Obligations.RegisterDumpStoresTheGroup := by
  intro x s hwf
  exact ⟨fun hin => ⟨_, exec_of_allows hin, advances_advance rfl, toNat_indexPast x s,
    fun k hk => read_after_ldMemVx hwf hin hk, keeps_after_ldMemVx x s⟩, records_ldMemVx⟩

theorem after_ldVxMem_reg (s : State) (x k : Reg) :
    (after s (.ldVxMem x)).reg k = if k ≤ x then s.mem.read (effAddr s k.val) else s.reg k := by
  rw [after, State.advance_reg, State.setI_reg, loadRegs_reg]
  simp only [Memory.length_readBytes, Memory.getElem_readBytes]
  by_cases hk : k ≤ x
  · rw [dif_pos ⟨Nat.zero_le _, by have := Fin.le_def.1 hk; omega⟩, if_pos hk]
    rfl
  · rw [dif_neg fun h => hk (Fin.le_def.2 (by omega)), if_neg hk]

theorem keeps_after_ldVxMem (s : State) (x : Reg) :
    Keeps s (after s (.ldVxMem x)) fun p => p = .index ∨ ∃ k : Reg, k ≤ x ∧ p = .reg k := by
  intro p
  cases p with
  | index => exact .inl (.inl rfl)
  | reg k =>
    by_cases hk : k ≤ x
    · exact .inl (.inr ⟨k, hk, rfl⟩)
    · exact .inr ((after_ldVxMem_reg s x k).trans (if_neg hk))
  | _ =>
    obtain ⟨v, hv⟩ := after_ldVxMem s x
    rw [hv]
    exact .inr rfl

theorem after_ldVxMem_i_pc (s : State) (x : Reg) :
    (after s (.ldVxMem x)).i = indexPast x s ∧ (after s (.ldVxMem x)).pc = s.pc + 2 := by
  obtain ⟨v, hv⟩ := after_ldVxMem s x
  rw [hv]
  exact ⟨rfl, rfl⟩

/-- Settles O29: the group is loaded byte by byte, then `I` moves past it. -/
theorem registerLoadReadsTheGroup : Obligations.RegisterLoadReadsTheGroup := by
  intro x s
  obtain ⟨hi, hpc⟩ := after_ldVxMem_i_pc s x
  refine ⟨fun hin => ⟨_, exec_of_allows hin, ?advances, ?index, fun k hk => ?loaded, keeps_after_ldVxMem s x⟩,
    records_ldVxMem⟩
  case advances =>
    rw [Advances, hpc]
    exact BitVec.toNat_add ..
  case index =>
    rw [hi]
    exact toNat_indexPast x s
  case loaded => rw [after_ldVxMem_reg, if_pos hk]

/-- Settles O30: from the same `I` the load reads the bytes of the dump, and moves `I` as far. -/
theorem dumpThenLoadRestoresRegisters : Obligations.DumpThenLoadRestoresRegisters := by
  intro x s hwf hin
  refine ⟨_, exec_of_allows hin, fun u hparams hmem hi => ?_⟩
  have haddr : ∀ k, effAddr u k = effAddr s k := fun k => by rw [effAddr, hi, effAddr]
  have hallows : effAddr u x.val < u.params.memSize := by
    rw [haddr, hparams, (after_sameInputs s (.ldMemVx x)).params]
    exact hin
  refine ⟨_, exec_of_allows hallows, fun k hk => ?restored, ?index⟩
  case restored => rw [after_ldVxMem_reg, if_pos hk, haddr, hmem, read_after_ldMemVx hwf hin hk]
  case index =>
    rw [(after_ldVxMem_i_pc u x).1, indexPast, hi]
    rfl

/-- Settles O31: the dump leaves `PC` at the two bytes it stored there, and the next step fetches them. -/
theorem storedBytesAreFetchedNext : Obligations.StoredBytesAreFetchedNext := by
  intro x j k s hlegal hwf hrun hin hj hk hkx
  obtain ⟨-, hmem, -⟩ := legal_iff.1 hlegal
  have hkx' := Fin.le_def.1 hkx
  unfold effAddr at hj hk
  have hjx : j ≤ x := Fin.le_def.2 (by omega)
  have hread := fun r (hr : r ≤ x) => read_after_ldMemVx hwf hin hr
  unfold effAddr at hin
  have hpc : (after s (.ldMemVx x)).pc.toNat = s.pc.toNat + 2 :=
    toNat_add_two (w := s.pc) (by omega)
  refine ⟨after s (.ldMemVx x), exec_of_allows (by unfold Allows effAddr; omega), hpc, ?_⟩
  have hword : wordAtPc (after s (.ldMemVx x)) = wordOfBytes (s.reg j) (s.reg k) := by
    rw [wordAtPc, hpc, Memory.readWord, ← hread j hjx, ← hread k hkx, effAddr, effAddr, hj, hk]
  rw [coreStep_of_inside ((after_sameRecord s _).fault.trans hrun)
    (by rw [hpc, (after_sameInputs s _).params]; omega), hword]

end Sys2Proof
end

section
/-! PROOFS of the family "other", the display: O33 (`DRW`, R152, R153) and O34 (the same sprite twice, log 25). -/

namespace Sys2Proof

open Machine

/-- The bit that the drawn rows put over a pixel is the one R152 names. -/
theorem rowsBit_readBytes (s : State) (x y : Reg) (n : Nibble) (py : Fin 32) (px : Fin 64) :
    rowsBit (spriteCol x s) (spriteLine y s) 0 (s.mem.readBytes s.i.toNat n.toNat) py px = spriteBit s x y n py px := by
  have hline : lineOffset (spriteLine y s) py = (py.val + 32 - regNat s y % 32) % 32 := by
    rw [lineOffset, spriteLine, Config.fbH, Nat.mod_mod, regNat]
  have hcol : colOffset (spriteCol x s) px = (px.val + 64 - regNat s x % 64) % 64 := by
    rw [colOffset, spriteCol, Config.fbW, Nat.mod_mod, regNat]
  unfold rowsBit rowBit spriteBit
  rw [hline, hcol, Memory.length_readBytes]
  generalize (py.val + 32 - regNat s y % 32) % 32 = r
  by_cases hr : r < n.toNat
  · have hbyte : (s.mem.readBytes s.i.toNat n.toNat).getD r 0 = s.mem.read (s.i.toNat + r) := by
      rw [List.getD_eq_getElem _ _ (by rwa [Memory.length_readBytes]), Memory.getElem_readBytes]
    rw [Nat.sub_zero, hbyte]
    simp [hr]
  · simp [hr]

theorem drawnBy_spec (s : State) (x y : Reg) (n : Nibble) :
    (∀ py px, (drawnBy s x y n).fb.pixel py px = (s.fb.pixel py px ^^ spriteBit s x y n py px)) ∧
      ((drawnBy s x y n).collision = true ↔
        ∃ py px, s.fb.pixel py px = true ∧ spriteBit s x y n py px = true) := by
  have hn := n.isLt
  have hspec := Drawing.rows_spec (spriteCol x s) (spriteLine y s) 0 (s.mem.readBytes s.i.toNat n.toNat)
    (by rw [Memory.length_readBytes]; omega) ⟨s.fb, false⟩
  unfold drawnBy drawSprite
  simpa only [rowsBit_readBytes, Bool.false_eq_true, false_or] using hspec

theorem after_drw_pixel (s : State) (x y : Reg) (n : Nibble) (py : Fin 32) (px : Fin 64) :
    (after s (.drw x y n)).fb.pixel py px = (s.fb.pixel py px ^^ spriteBit s x y n py px) :=
  (drawnBy_spec s x y n).1 py px

theorem after_drw_vf (s : State) (x y : Reg) (n : Nibble) :
    (after s (.drw x y n)).reg vf = flagByte (drawnBy s x y n).collision :=
  State.setReg_reg_self _ vf _

theorem after_drw_vf_eq_one_iff (s : State) (x y : Reg) (n : Nibble) :
    (after s (.drw x y n)).reg vf = 1 ↔ ∃ py px, s.fb.pixel py px = true ∧ spriteBit s x y n py px = true := by
  rw [after_drw_vf]
  exact (flagByte_eq_one _).trans (drawnBy_spec s x y n).2

/-- A lit pixel is turned off exactly when a set sprite bit lies over it. -/
theorem turned_off_iff (s : State) (x y : Reg) (n : Nibble) :
    (∃ py px, s.fb.pixel py px = true ∧ (after s (.drw x y n)).fb.pixel py px = false) ↔
      ∃ py px, s.fb.pixel py px = true ∧ spriteBit s x y n py px = true := by
  refine exists_congr fun py => exists_congr fun px => and_congr_right fun hlit => ?_
  rw [after_drw_pixel, hlit, Bool.true_xor, Bool.not_eq_false']

theorem keeps_after_drw (s : State) (x y : Reg) (n : Nibble) :
    Keeps s (after s (.drw x y n)) fun p => p = .reg vf ∨ ∃ py px, p = .pixel py px :=
  keeps_advance (keeps_trans (keeps_setFb s _) (keeps_setReg _ vf _))

/-- Settles O33: the rows exclusive-or the sprite bits, and collide when one of them lies over a lit pixel. -/
theorem drwXorsTheSpriteAndReportsCollision : Obligations.DrwXorsTheSpriteAndReportsCollision := by
  intro x y n s
  refine ⟨fun hin => ⟨_, exec_of_allows hin, advances_advance rfl, after_drw_pixel s x y n, fun hoff => ?hit,
    fun hnone => ?miss, keeps_after_drw s x y n⟩, fun hn hout => records_drw x y hn hout⟩
  case hit => exact (after_drw_vf_eq_one_iff s x y n).2 ((turned_off_iff s x y n).1 hoff)
  case miss =>
    obtain hzero | hone := flagByte_zero_or_one (drawnBy s x y n).collision
    · exact (after_drw_vf s x y n).trans hzero
    · have hlit := (after_drw_vf_eq_one_iff s x y n).1 ((after_drw_vf s x y n).trans hone)
      exact absurd ((turned_off_iff s x y n).2 hlit) hnone

/-- With other coordinate registers than `VF`, a drawing leaves what the next drawing of the sprite reads. -/
theorem spriteBit_after_drw {s : State} {x y : Reg} (hx : x ≠ vf) (hy : y ≠ vf) (n : Nibble) (py : Fin 32)
    (px : Fin 64) : spriteBit (after s (.drw x y n)) x y n py px = spriteBit s x y n py px := by
  have hreg : ∀ r, r ≠ vf → regNat (after s (.drw x y n)) r = regNat s r := fun r hr =>
    congrArg BitVec.toNat (State.setReg_reg_ne _ _ hr)
  unfold spriteBit
  rw [hreg x hx, hreg y hy]
  rfl

/-- Settles O34: the second drawing exclusive-ors the same bits again, and a pixel under a set bit is lit by then
exactly when it was off at first. -/
theorem drwTwiceRestoresTheFramebuffer : Obligations.DrwTwiceRestoresTheFramebuffer := by
  intro x y n s hx hy hin
  refine ⟨_, exec_of_allows hin, _, exec_of_allows (i := .drw x y n) hin, fun py px => ?restored, ?collides⟩
  case restored =>
    rw [after_drw_pixel, after_drw_pixel, spriteBit_after_drw hx hy, Bool.xor_assoc, Bool.xor_self, Bool.xor_false]
  case collides =>
    rw [after_drw_vf_eq_one_iff]
    refine exists_congr fun py => exists_congr fun px => ?_
    rw [spriteBit_after_drw hx hy, after_drw_pixel, and_comm]
    refine and_congr_right fun hbit => ?_
    rw [hbit, Bool.xor_true, Bool.not_eq_true']

end Sys2Proof
end

section
/-! PROOFS of the family "other", the keypad: O35 (`LD Vx, K`, R163). -/

namespace Sys2Proof

open Machine

theorem after_ldVxK_of_none {s : State} (h : selectKey s = none) (x : Reg) :
    after s (.ldVxK x) = s.setWaiting true := by
  rw [after, h]

theorem after_ldVxK_of_some {s : State} {k : Nat} (h : selectKey s = some k) (x : Reg) :
    after s (.ldVxK x) = ((s.setReg x (BitVec.ofNat 8 k)).setWaiting false).advance := by
  rw [after, h]

theorem keeps_setWaiting (s : State) (w : Bool) : Keeps s (s.setWaiting w) fun p => p = .waiting := by
  intro p
  cases p with
  | waiting => exact .inl rfl
  | _ => exact .inr rfl

/-- Settles O35: no key is taken exactly when none is down, and the key taken is one that is down. -/
theorem keyWaitBlocksOrTakesPressedKey : Obligations.KeyWaitBlocksOrTakesPressedKey := by
  intro x s
  refine ⟨fun hnone => ?waits, fun hdown => ?takes⟩
  case waits =>
    have hexec : exec (.ldVxK x) s = .next (s.setWaiting true) := by
      rw [exec_ldVxK, after_ldVxK_of_none (selectKey_eq_none.2 hnone)]
    exact ⟨_, hexec, rfl, rfl, keeps_setWaiting s true⟩
  case takes =>
    obtain ⟨k, hk⟩ := Option.ne_none_iff_exists'.1 (mt selectKey_eq_none.1 hdown)
    obtain ⟨hlt, hpressed, hlowest⟩ := selectKey_spec hk
    have hexec : exec (.ldVxK x) s = .next ((s.setReg x (BitVec.ofNat 8 k)).setWaiting false).advance := by
      rw [exec_ldVxK, after_ldVxK_of_some hk]
    have hvalue : (((s.setReg x (BitVec.ofNat 8 k)).setWaiting false).advance.reg x).toNat = k := by
      rw [State.advance_reg, State.setWaiting_reg, State.setReg_reg_self]
      exact Nat.mod_eq_of_lt (by omega)
    have hkeeps := keeps_advance (keeps_trans (keeps_setReg s x (BitVec.ofNat 8 k)) (keeps_setWaiting _ false))
    refine ⟨_, hexec, advances_advance rfl, rfl, keeps_mono hkeeps fun _ => Or.symm, ?_⟩
    rw [hvalue]
    exact ⟨hlt, hpressed, hlowest⟩

end Sys2Proof
end
